-- ==== Sys2Proof/Word.lean ====
section
/-! DEFINITION. The machine's words: bytes, 16-bit words, register numbers (spec/00_scope.md R7, R11; spec/10_state.md R21, R24). -/

namespace Sys2Proof

/-- A memory byte, a general register or a timer: 8 bits (R7). -/
abbrev Byte := BitVec 8

/-- An instruction word, `pc`, `I` or a stack slot: 16 bits (R7). -/
abbrev Word := BitVec 16

/-- The index of a general register V0 to VF (R21). -/
abbrev Reg := Fin 16

/-- VF, the register that doubles as the flag output (R22). -/
abbrev regF : Reg := 15

/-- `zext_16` of R11, for a value of any width up to 16. -/
def zext16 {w : Nat} (v : BitVec w) : Word := v.setWidth 16

end Sys2Proof
end

