-- ==== Sys2Proof/Syntax.lean ====
section
/-! DEFINITION. The instructions: one constructor per row of spec/opcode_table.json, in the order of spec/30_encoding.md R85. -/

namespace Sys2Proof

/-- One instruction. The operands have exactly the widths of the encoding's fields (R81). -/
inductive Instr where
  /-- 00E0, CLS (R110). -/
  | cls
  /-- 00EE, RET (R121). -/
  | ret
  /-- 1nnn, JP nnn (R122). -/
  | jp (nnn : BitVec 12)
  /-- 2nnn, CALL nnn (R123). -/
  | call (nnn : BitVec 12)
  /-- 3xkk, SE Vx, kk (R125). -/
  | seImm (x : Reg) (kk : Byte)
  /-- 4xkk, SNE Vx, kk (R126). -/
  | sneImm (x : Reg) (kk : Byte)
  /-- 5xy0, SE Vx, Vy (R127). -/
  | seReg (x y : Reg)
  /-- 6xkk, LD Vx, kk (R142). -/
  | ldImm (x : Reg) (kk : Byte)
  /-- 7xkk, ADD Vx, kk (R143). -/
  | addImm (x : Reg) (kk : Byte)
  /-- 8xy0, LD Vx, Vy (R144). -/
  | ldReg (x y : Reg)
  /-- 8xy1, OR Vx, Vy (R145). -/
  | orReg (x y : Reg)
  /-- 8xy2, AND Vx, Vy (R146). -/
  | andReg (x y : Reg)
  /-- 8xy3, XOR Vx, Vy (R147). -/
  | xorReg (x y : Reg)
  /-- 8xy4, ADD Vx, Vy (R149). -/
  | addReg (x y : Reg)
  /-- 8xy5, SUB Vx, Vy (R151). -/
  | subReg (x y : Reg)
  /-- 8xy6, SHR Vx (R154). `y` is in the word and is not read (R86, R155). -/
  | shr (x y : Reg)
  /-- 8xy7, SUBN Vx, Vy (R153). -/
  | subnReg (x y : Reg)
  /-- 8xyE, SHL Vx (R156). `y` is in the word and is not read (R86, R155). -/
  | shl (x y : Reg)
  /-- 9xy0, SNE Vx, Vy (R128). -/
  | sneReg (x y : Reg)
  /-- Annn, LD I, nnn (R170). -/
  | ldI (nnn : BitVec 12)
  /-- Bnnn, JP V0, nnn (R124). -/
  | jpV0 (nnn : BitVec 12)
  /-- Cxkk, RND Vx, kk (R158). -/
  | rnd (x : Reg) (kk : Byte)
  /-- Dxyn, DRW Vx, Vy, n (R112). -/
  | drw (x y : Reg) (n : Fin 16)
  /-- Ex9E, SKP Vx (R190). -/
  | skp (x : Reg)
  /-- ExA1, SKNP Vx (R191). -/
  | sknp (x : Reg)
  /-- Fx07, LD Vx, DT (R193). -/
  | ldFromDT (x : Reg)
  /-- Fx0A, LD Vx, K (R194). -/
  | ldKey (x : Reg)
  /-- Fx15, LD DT, Vx (R197). -/
  | ldDT (x : Reg)
  /-- Fx18, LD ST, Vx (R198). -/
  | ldST (x : Reg)
  /-- Fx1E, ADD I, Vx (R172). -/
  | addI (x : Reg)
  /-- Fx29, LD F, Vx (R174). -/
  | ldF (x : Reg)
  /-- Fx33, LD B, Vx (R176). -/
  | ldB (x : Reg)
  /-- Fx55, LD [I], Vx (R178). -/
  | storeRegs (x : Reg)
  /-- Fx65, LD Vx, [I] (R180). -/
  | loadRegs (x : Reg)
  deriving DecidableEq, Repr

end Sys2Proof
end

