-- ==== Sys2Proof/Decode.lean ====
section
/-! DEFINITION. From words and bytes to instructions and back (spec/30_encoding.md R80 to R88). -/

namespace Sys2Proof

/-! ## The fields of a word (R81) -/

/-- `x`, bits 11 to 8. -/
def fieldX (w : Word) : Reg := (w.extractLsb' 8 4).toFin

/-- `y`, bits 7 to 4. -/
def fieldY (w : Word) : Reg := (w.extractLsb' 4 4).toFin

/-- `n`, bits 3 to 0. -/
def fieldN (w : Word) : Fin 16 := (w.extractLsb' 0 4).toFin

/-- `kk`, bits 7 to 0. -/
def fieldKK (w : Word) : Byte := w.extractLsb' 0 8

/-- `nnn`, bits 11 to 0. -/
def fieldNNN (w : Word) : BitVec 12 := w.extractLsb' 0 12

/-! ## The opcode map (R85) -/

/-- One row of the opcode map. -/
structure OpcodeRow where
  /-- The row's mnemonic as spec/opcode_table.json spells it. -/
  mnemonic : String
  /-- The bits that the row fixes. -/
  mask : Word
  /-- What those bits are. -/
  pattern : Word
  /-- The instruction a word of this row is. -/
  build : Word → Instr

/-- `(op & mask) == match` (R84). -/
def OpcodeRow.fits (r : OpcodeRow) (w : Word) : Bool := w &&& r.mask == r.pattern

/-- Rows 1 to 9 of R85. -/
def rowsFlow : List OpcodeRow := [
  ⟨"CLS", 0xFFFF, 0x00E0, fun _ => .cls⟩,
  ⟨"RET", 0xFFFF, 0x00EE, fun _ => .ret⟩,
  ⟨"JP_nnn", 0xF000, 0x1000, fun w => .jp (fieldNNN w)⟩,
  ⟨"CALL_nnn", 0xF000, 0x2000, fun w => .call (fieldNNN w)⟩,
  ⟨"SE_Vx__kk", 0xF000, 0x3000, fun w => .seImm (fieldX w) (fieldKK w)⟩,
  ⟨"SNE_Vx__kk", 0xF000, 0x4000, fun w => .sneImm (fieldX w) (fieldKK w)⟩,
  ⟨"SE_Vx__Vy", 0xF00F, 0x5000, fun w => .seReg (fieldX w) (fieldY w)⟩,
  ⟨"LD_Vx__kk", 0xF000, 0x6000, fun w => .ldImm (fieldX w) (fieldKK w)⟩,
  ⟨"ADD_Vx__kk", 0xF000, 0x7000, fun w => .addImm (fieldX w) (fieldKK w)⟩]

/-- Rows 10 to 19 of R85. -/
def rowsRegister : List OpcodeRow := [
  ⟨"LD_Vx__Vy", 0xF00F, 0x8000, fun w => .ldReg (fieldX w) (fieldY w)⟩,
  ⟨"OR_Vx__Vy", 0xF00F, 0x8001, fun w => .orReg (fieldX w) (fieldY w)⟩,
  ⟨"AND_Vx__Vy", 0xF00F, 0x8002, fun w => .andReg (fieldX w) (fieldY w)⟩,
  ⟨"XOR_Vx__Vy", 0xF00F, 0x8003, fun w => .xorReg (fieldX w) (fieldY w)⟩,
  ⟨"ADD_Vx__Vy", 0xF00F, 0x8004, fun w => .addReg (fieldX w) (fieldY w)⟩,
  ⟨"SUB_Vx__Vy", 0xF00F, 0x8005, fun w => .subReg (fieldX w) (fieldY w)⟩,
  ⟨"SHR_Vx", 0xF00F, 0x8006, fun w => .shr (fieldX w) (fieldY w)⟩,
  ⟨"SUBN_Vx__Vy", 0xF00F, 0x8007, fun w => .subnReg (fieldX w) (fieldY w)⟩,
  ⟨"SHL_Vx", 0xF00F, 0x800E, fun w => .shl (fieldX w) (fieldY w)⟩,
  ⟨"SNE_Vx__Vy", 0xF00F, 0x9000, fun w => .sneReg (fieldX w) (fieldY w)⟩]

/-- Rows 20 to 25 of R85. -/
def rowsAddress : List OpcodeRow := [
  ⟨"LD_I__nnn", 0xF000, 0xA000, fun w => .ldI (fieldNNN w)⟩,
  ⟨"JP_V0__nnn", 0xF000, 0xB000, fun w => .jpV0 (fieldNNN w)⟩,
  ⟨"RND_Vx__kk", 0xF000, 0xC000, fun w => .rnd (fieldX w) (fieldKK w)⟩,
  ⟨"DRW_Vx__Vy__n", 0xF000, 0xD000, fun w => .drw (fieldX w) (fieldY w) (fieldN w)⟩,
  ⟨"SKP_Vx", 0xF0FF, 0xE09E, fun w => .skp (fieldX w)⟩,
  ⟨"SKNP_Vx", 0xF0FF, 0xE0A1, fun w => .sknp (fieldX w)⟩]

/-- Rows 26 to 34 of R85. -/
def rowsFunction : List OpcodeRow := [
  ⟨"LD_Vx__DT", 0xF0FF, 0xF007, fun w => .ldFromDT (fieldX w)⟩,
  ⟨"LD_Vx__K", 0xF0FF, 0xF00A, fun w => .ldKey (fieldX w)⟩,
  ⟨"LD_DT__Vx", 0xF0FF, 0xF015, fun w => .ldDT (fieldX w)⟩,
  ⟨"LD_ST__Vx", 0xF0FF, 0xF018, fun w => .ldST (fieldX w)⟩,
  ⟨"ADD_I__Vx", 0xF0FF, 0xF01E, fun w => .addI (fieldX w)⟩,
  ⟨"LD_F__Vx", 0xF0FF, 0xF029, fun w => .ldF (fieldX w)⟩,
  ⟨"LD_B__Vx", 0xF0FF, 0xF033, fun w => .ldB (fieldX w)⟩,
  ⟨"LD__I___Vx", 0xF0FF, 0xF055, fun w => .storeRegs (fieldX w)⟩,
  ⟨"LD_Vx___I", 0xF0FF, 0xF065, fun w => .loadRegs (fieldX w)⟩]

/-- The whole opcode map, 34 rows (R85). -/
def opcodeMap : List OpcodeRow := rowsFlow ++ rowsRegister ++ rowsAddress ++ rowsFunction

/-! ## Decoding (R84) -/

/-- `Decode(op)`: the row whose fixed bits the word has; none is an unknown opcode (R84, R87). -/
def decodeWord (w : Word) : Option Instr := (opcodeMap.find? (·.fits w)).map (·.build w)

/-- Why bytes are no instruction. -/
inductive DecodeReject where
  /-- Fewer than the two bytes every instruction has (R80). -/
  | truncated
  /-- The word matches no row of the opcode map (R87). -/
  | unknownOpcode (w : Word)
  deriving DecidableEq, Repr

/-- Big-endian: the byte at the lower address is the high byte (R60, R62). -/
def wordOfBytes (hi lo : Byte) : Word := hi ++ lo

/-- Decode the first instruction of a byte sequence and give the rest (R80: always 2 bytes). -/
def decode : List Byte → Except DecodeReject (Instr × List Byte)
  | hi :: lo :: rest =>
    match decodeWord (wordOfBytes hi lo) with
    | some i => .ok (i, rest)
    | none => .error (.unknownOpcode (wordOfBytes hi lo))
  | [_] | [] => .error .truncated

/-! ## Encoding (R82, R85) -/

/-- A register number or a count as the nibble that holds it. -/
def nibble (x : Fin 16) : BitVec 4 := BitVec.ofFin x

/-- Format NNN. -/
def packNNN (op : BitVec 4) (nnn : BitVec 12) : Word := op ++ nnn

/-- Format XKK. -/
def packXKK (op : BitVec 4) (x : Reg) (kk : Byte) : Word := op ++ nibble x ++ kk

/-- Formats XYF and XYN. -/
def packXYN (op : BitVec 4) (x y : Reg) (n : BitVec 4) : Word := op ++ nibble x ++ nibble y ++ n

/-- Format XFF. -/
def packXFF (op : BitVec 4) (x : Reg) (f : Byte) : Word := op ++ nibble x ++ f

/-- The word of an instruction. -/
def encode : Instr → Word
  | .cls => 0x00E0
  | .ret => 0x00EE
  | .jp nnn => packNNN 0x1 nnn
  | .call nnn => packNNN 0x2 nnn
  | .seImm x kk => packXKK 0x3 x kk
  | .sneImm x kk => packXKK 0x4 x kk
  | .seReg x y => packXYN 0x5 x y 0x0
  | .ldImm x kk => packXKK 0x6 x kk
  | .addImm x kk => packXKK 0x7 x kk
  | .ldReg x y => packXYN 0x8 x y 0x0
  | .orReg x y => packXYN 0x8 x y 0x1
  | .andReg x y => packXYN 0x8 x y 0x2
  | .xorReg x y => packXYN 0x8 x y 0x3
  | .addReg x y => packXYN 0x8 x y 0x4
  | .subReg x y => packXYN 0x8 x y 0x5
  | .shr x y => packXYN 0x8 x y 0x6
  | .subnReg x y => packXYN 0x8 x y 0x7
  | .shl x y => packXYN 0x8 x y 0xE
  | .sneReg x y => packXYN 0x9 x y 0x0
  | .ldI nnn => packNNN 0xA nnn
  | .jpV0 nnn => packNNN 0xB nnn
  | .rnd x kk => packXKK 0xC x kk
  | .drw x y n => packXYN 0xD x y (nibble n)
  | .skp x => packXFF 0xE x 0x9E
  | .sknp x => packXFF 0xE x 0xA1
  | .ldFromDT x => packXFF 0xF x 0x07
  | .ldKey x => packXFF 0xF x 0x0A
  | .ldDT x => packXFF 0xF x 0x15
  | .ldST x => packXFF 0xF x 0x18
  | .addI x => packXFF 0xF x 0x1E
  | .ldF x => packXFF 0xF x 0x29
  | .ldB x => packXFF 0xF x 0x33
  | .storeRegs x => packXFF 0xF x 0x55
  | .loadRegs x => packXFF 0xF x 0x65

/-- The two bytes of a word as memory holds them, the high byte first (R60). -/
def bytesOfWord (w : Word) : List Byte := [w.extractLsb' 8 8, w.extractLsb' 0 8]

/-- The instruction the decoder reads from the word `w` of spec/opcode_table.json: laid out in memory's byte order and decoded. Every instruction is one word, so bits above the sixteenth are no part of it. -/
def decodeTableWord (_nbits w : Nat) : Option Instr :=
  match decode (bytesOfWord (BitVec.ofNat 16 w)) with
  | .ok (i, _) => some i
  | .error _ => none

end Sys2Proof
end

