-- ==== Sys2Proof/Machine/Flags.lean ====
section
/-! DEFINITION. Every value that an instruction writes to VF as a flag (spec/10_state.md R22). -/

namespace Sys2Proof.Machine

/-- A condition as the byte VF receives: 1 or 0. -/
def flagByte (b : Bool) : Byte := if b then 1 else 0

/-- The carry of 8xy4: the exact sum is above 255 (spec/42_alu.md R149). -/
def carryFlag (a b : Byte) : Byte := flagByte (decide (a.toNat + b.toNat > 255))

/-- The flag of 8xy5 and 8xy7: strictly greater, 0 on equality (R151 to R153). -/
def greaterFlag (a b : Byte) : Byte := flagByte (decide (a.toNat > b.toNat))

/-- The bit 8xy6 shifts out (R154). -/
def lowBitFlag (a : Byte) : Byte := a &&& 1

/-- The bit 8xyE shifts out (R156). -/
def highBitFlag (a : Byte) : Byte := (a >>> 7) &&& 1

/-- The collision flag of Dxyn (spec/40_display.md R112). -/
def collisionFlag (collide : Bool) : Byte := flagByte collide

end Sys2Proof.Machine
end

