-- ==== Sys2Proof/Config.lean ====
section
/-! DEFINITION. What is fixed for the machine (spec/00_scope.md R7) and the values the spec leaves open (R8). An open value is a constant with no body: nothing can be proved about what it is. -/

namespace Sys2Proof.Config

/-- `MEM_SIZE` (R7): addresses 0x000 to 0xFFF exist. -/
abbrev memSize : Nat := 4096

/-- `PROG_BASE` (R7), also the reset value of `pc` (R37). -/
abbrev progBase : Nat := 0x200

/-- `PROG_MAX` (R7): the longest program image. -/
abbrev progMax : Nat := 3584

/-- `FONT_BASE` (R7). -/
abbrev fontBase : Nat := 0x050

/-- `GLYPH_BYTES` (R7). -/
abbrev glyphBytes : Nat := 5

/-- The key snapshot of the `n`-th Step that the host's script does not give (R227; notes/assumptions/3.md). -/
opaque freeKeys : Nat → Vector Bool 16

/-- The random byte of that Step, under no law (R228; notes/assumptions/3.md). -/
opaque freeRnd : Nat → Byte

/-- The choice `FX0A_PICK` makes in that Step (R196; notes/assumptions/4.md). -/
opaque freePick : Nat → Nat

/-- How many TimerTicks the host invokes between that Step and the next (SCHEDULE, R231; notes/assumptions/2.md). -/
opaque freeTicks : Nat → Nat

/-- `TIMERS_RUN_IN_KEY_WAIT`, which the source refuses to decide (R226; notes/assumptions/5.md). -/
opaque timersRunInKeyWait : Bool

end Sys2Proof.Config
end

