-- ==== Sys2Proof/Machine/Memory.lean ====
section
/-! DEFINITION. The memory: 4096 bytes (spec/20_memory.md R50), the font (R52 to R54), reads and writes of bytes. -/

namespace Sys2Proof.Machine

/-- Address and byte pairs in one canonical form (`Memory.wf`). An address that is not listed reads as `Memory.unlisted`. -/
abbrev Memory := List Host.Cell

/-! ## The font (R54) -/

/-- Glyphs 0 to 7 of the default `FONT`, 5 row bytes each (R54). PRESUMED: the spec marks the table as general knowledge (notes/assumptions/7.md). -/
def fontLow : List Byte :=
  [0xF0, 0x90, 0x90, 0x90, 0xF0] ++ [0x20, 0x60, 0x20, 0x20, 0x70] ++
  [0xF0, 0x10, 0xF0, 0x80, 0xF0] ++ [0xF0, 0x10, 0xF0, 0x10, 0xF0] ++
  [0x90, 0x90, 0xF0, 0x10, 0x10] ++ [0xF0, 0x80, 0xF0, 0x10, 0xF0] ++
  [0xF0, 0x80, 0xF0, 0x90, 0xF0] ++ [0xF0, 0x10, 0x20, 0x40, 0x40]

/-- Glyphs 8 to F of the default `FONT` (R54). PRESUMED, as `fontLow`. -/
def fontHigh : List Byte :=
  [0xF0, 0x90, 0xF0, 0x90, 0xF0] ++ [0xF0, 0x90, 0xF0, 0x10, 0xF0] ++
  [0xF0, 0x90, 0xF0, 0x90, 0x90] ++ [0xE0, 0x90, 0xE0, 0x90, 0xE0] ++
  [0xF0, 0x80, 0x80, 0x80, 0xF0] ++ [0xE0, 0x90, 0x90, 0x90, 0xE0] ++
  [0xF0, 0x80, 0xF0, 0x80, 0xF0] ++ [0xF0, 0x80, 0xF0, 0x80, 0x80]

/-- The default value of the parameter `FONT`, 80 bytes (R54). -/
def defaultFont : List Byte := fontLow ++ fontHigh

/-! ## Reading -/

/-- What an address that is not listed reads as: the contents R37 and R66 give memory before a program is loaded, that is the font at 0x050 to 0x09F and 0x00 elsewhere. -/
def Memory.unlisted (a : Nat) : Byte :=
  if Config.fontBase ≤ a then defaultFont.getD (a - Config.fontBase) 0 else 0

/-- `MemRead(a, 1)` (R12). Its users check the address first (R58), so what it gives above 0xFFF is never used. -/
def Memory.read : Memory → Nat → Byte
  | [], a => Memory.unlisted a
  | (b, v) :: rest, a => if a = b then v else Memory.read rest a

/-- The `n` bytes from address `a` on. -/
def Memory.readBytes (m : Memory) (a : Nat) : Nat → List Byte
  | 0 => []
  | n + 1 => Memory.read m a :: Memory.readBytes m (a + 1) n

/-- The 16-bit word at `a`, high byte first (R60, R62). -/
def Memory.readWord (m : Memory) (a : Nat) : Word := Memory.read m a ++ Memory.read m (a + 1)

/-! ## Writing -/

/-- Forget what is listed for `a`. -/
def Memory.erase (m : Memory) (a : Nat) : Memory := m.filter (fun c => c.1 != a)

/-- List a byte for `a` at its place in the order of addresses. -/
def Memory.place (a : Nat) (v : Byte) : Memory → Memory
  | [] => [(a, v)]
  | (b, u) :: rest => if a < b then (a, v) :: (b, u) :: rest else (b, u) :: Memory.place a v rest

/-- `MemWrite(a, 1, v)` (R12), keeping the canonical form. Its users check the address first (R58). -/
def Memory.write (m : Memory) (a : Nat) (v : Byte) : Memory :=
  if v = Memory.unlisted a then Memory.erase m a else Memory.place a v (Memory.erase m a)

/-- Write bytes to `a`, `a + 1`, … in this order. -/
def Memory.writeBytes : Memory → Nat → List Byte → Memory
  | m, _, [] => m
  | m, a, v :: vs => Memory.writeBytes (Memory.write m a v) (a + 1) vs

/-! ## The canonical form -/

/-- Addresses exist and rise strictly, and no entry equals what an unlisted address reads as. -/
def Memory.wf : Memory → Bool
  | [] => true
  | (a, v) :: rest =>
    decide (a < Config.memSize) && v != Memory.unlisted a && rest.all (fun c => decide (a < c.1)) &&
      Memory.wf rest

/-- Memory with every byte 0x00, as `Reset()` leaves it (spec/70_reset_and_hazards.md R250). -/
def Memory.zeroed : Memory := Memory.writeBytes [] Config.fontBase (List.replicate 80 0)

end Sys2Proof.Machine
end

