-- ==== Sys2Proof/Machine/State.lean ====
section
/-! DEFINITION. The state of the core (spec/10_state.md R20), why a step can stop, and the state after reset (R37). -/

namespace Sys2Proof.Machine

/-- The fault causes (spec/60_exceptions.md R213). "No other fault exists." -/
inductive FaultCause where
  /-- Raised by the fetch of a Running step when pc + 1 > 0xFFF. -/
  | fetchOutOfBounds
  /-- Raised by decode when the word matches no row of the opcode map. -/
  | unknownOpcode
  /-- Raised by 2nnn when SP = 15. -/
  | stackOverflow
  /-- Raised by 00EE when SP = 0. -/
  | stackUnderflow
  /-- Raised by Dxyn, Fx33, Fx55 and Fx65 when an address of their range is above 0xFFF. -/
  | memoryOutOfBounds
  /-- Raised by Ex9E and ExA1 when V[x] > 0x0F. -/
  | keyOutOfRange
  /-- Raised by load_rom at boot when the image is longer than 3584 bytes. -/
  | romTooLarge
  deriving DecidableEq, Repr

/-- The diagnostic `d` of `Halted(d)` (R212). -/
structure Diagnostic where
  cause : FaultCause
  /-- The word fetched at pc, or none for FetchOutOfBounds and RomTooLarge. -/
  opcode : Option Word
  pc : Word
  deriving DecidableEq, Repr

/-- The controller mode (R33). -/
inductive Mode where
  | running
  /-- An Fx0A at pc waits for a key for register `x`. -/
  | awaitingKey (x : Reg)
  /-- A fault has stopped the core for good. -/
  | halted (d : Diagnostic)
  deriving DecidableEq, Repr

/-- The framebuffer (R31): `FB[x][y]` is column x of 64, row y of 32. -/
abbrev Framebuffer := Vector (Vector Bool 32) 64

/-- What the host gives with one Step (R227, R228, R231): no state of the core, an argument of the step (R36). -/
structure Turn where
  /-- The snapshot `Keys[0..15]`, true for pressed. -/
  keys : Vector Bool 16
  /-- The random byte `RND`. -/
  rnd : Byte
  /-- The choice `FX0A_PICK` makes among the pressed keys (R196). -/
  pick : Nat
  /-- How many TimerTicks the host invokes after this Step and before the next. -/
  ticks : Nat
  deriving DecidableEq, Repr

/-- The architectural state, component by component as R20 lists it, and the model's two own fields `turns` and `turnCount`. -/
structure State where
  /-- General registers V0 to VF (R21). -/
  V : Vector Byte 16
  /-- Address register (R26). -/
  I : Word
  /-- Program counter (R24). -/
  pc : Word
  /-- Stack pointer, 0 for the empty stack (R27). -/
  SP : Fin 16
  /-- Call stack of return addresses, outside memory (R28). -/
  stack : Vector Word 16
  /-- Delay timer (R29). -/
  DT : Byte
  /-- Sound timer (R30). -/
  ST : Byte
  /-- Framebuffer (R31). -/
  FB : Framebuffer
  /-- Framebuffer changed flag (R32). -/
  changed : Bool
  /-- Controller mode (R33). -/
  mode : Mode
  /-- Memory (spec/20_memory.md R50). -/
  mem : Memory
  /-- The model's own: what the host gives to the coming steps, the next one first; where the list is empty the values are free (notes/assumptions/3.md). -/
  turns : List Turn
  /-- The model's own: the number of the next free draw (notes/assumptions/3.md). -/
  turnCount : Nat
  deriving DecidableEq, Repr

/-- Ways in which the machine stops without a next state. There is none: the spec gives every fault its effect, the Halted state of R96 and R211, which is a next state of the model (notes/assumptions/1.md; safe: nothing is lost and no claim is helped). -/
inductive Fault where
  deriving DecidableEq, Repr

/-- Why the model gives no meaning. -/
inductive Refusal where
  /-- Raised by `exec` alone, for an instruction that has no meaning yet; no arm answers it now. Safe. -/
  | notModelled (mnemonic : String)
  deriving DecidableEq, Repr

/-- The state before the first instruction step, R37's table: after `Reset()` and `LoadFont()` with the default font, before a program is loaded (notes/assumptions/6.md and 8.md). Memory lists nothing: it reads as the font and zeros. -/
def State.reset : State where
  V := Vector.replicate 16 0
  I := 0
  pc := 0x200
  SP := 0
  stack := Vector.replicate 16 0
  DT := 0
  ST := 0
  FB := Vector.replicate 64 (Vector.replicate 32 false)
  changed := false
  mode := .running
  mem := []
  turns := []
  turnCount := 0

end Sys2Proof.Machine
end

