-- ==== Sys2Proof/Machine/Ops.lean ====
section
/-! DEFINITION. The shared operations over registers, pc and mode: register access, the PC effects (spec/30_encoding.md R91, R94), taking a fault (R96; spec/60_exceptions.md R211), and the inputs of a step. There is no return from a fault (R217). -/

namespace Sys2Proof.Machine

/-! ## Registers (spec/00_scope.md R12) -/

/-- Read `V[x]`. -/
def State.reg (s : State) (x : Reg) : Byte := s.V[x]

/-- Write `V[x]`; no register is hardwired (spec/10_state.md R21). -/
def State.setReg (s : State) (x : Reg) (v : Byte) : State := { s with V := s.V.set x v }

/-- Write VF as the flag output (R22). -/
def State.setFlag (s : State) (v : Byte) : State := s.setReg regF v

/-- Write VF, then `V[x]`: with x = F the result stays and the flag is lost (spec/42_alu.md R141). -/
def State.setFlagAndReg (s : State) (x : Reg) (flag v : Byte) : State := (s.setFlag flag).setReg x v

/-- Clear Changed, as every step that is not halted does at its start (spec/30_encoding.md R90). -/
def State.clearChanged (s : State) : State := { s with changed := false }

/-! ## The PC effect (spec/30_encoding.md R91, R92) -/

/-- What an instruction declares about pc. -/
inductive PcEffect where
  /-- pc + 2. -/
  | next
  /-- pc + 4. -/
  | skip
  /-- pc becomes the target. -/
  | jump (target : Word)
  /-- Fx0A with no key pressed: pc stays, the mode becomes AwaitingKey. -/
  | wait (x : Reg)
  deriving DecidableEq, Repr

/-- Apply a PC effect. -/
def State.applyEffect (s : State) : PcEffect → State
  | .next => { s with pc := s.pc + 2 }
  | .skip => { s with pc := s.pc + 4 }
  | .jump target => { s with pc := target }
  | .wait x => { s with mode := .awaitingKey x }

/-- End an instruction whose body left `s`: its PC effect is applied after the body. -/
def complete (s : State) (eff : PcEffect) : Host.Outcome State Fault Refusal := .next (s.applyEffect eff)

/-- The effect of a skip instruction: Skip where the condition holds, else Next (R94). -/
def skipIf (condition : Bool) : PcEffect := if condition then .skip else .next

/-! ## Taking a fault (R96, R211, R212, R214) -/

/-- The word at pc (R60). -/
def State.opcode (s : State) : Word := Memory.readWord s.mem s.pc.toNat

/-- Enter `Halted(cause, opcode, pc)`: Changed becomes 0, and nothing else changes. -/
def State.halt (s : State) (cause : FaultCause) (opcode : Option Word) : State :=
  { s with changed := false, mode := .halted ⟨cause, opcode, s.pc⟩ }

/-- `raise Fault(cause)` inside the instruction at pc. -/
def raise (s : State) (cause : FaultCause) : Host.Outcome State Fault Refusal :=
  .next (s.halt cause (some s.opcode))

/-- The numeric code of a cause (R213); no program can read it. -/
def FaultCause.code : FaultCause → Nat
  | .fetchOutOfBounds => 1
  | .unknownOpcode => 2
  | .stackOverflow => 3
  | .stackUnderflow => 4
  | .memoryOutOfBounds => 5
  | .keyOutOfRange => 6
  | .romTooLarge => 7

/-! ## The inputs of a step (spec/60_exceptions.md R227, R228, R231) -/

/-- What the host gives with the Step under way: the head of the list, or free values where it is empty (notes/assumptions/3.md). -/
def State.turn (s : State) : Turn :=
  match s.turns with
  | t :: _ => t
  | [] => ⟨Config.freeKeys s.turnCount, Config.freeRnd s.turnCount, Config.freePick s.turnCount,
      Config.freeTicks s.turnCount⟩

/-- The host's turn is over. -/
def State.endTurn (s : State) : State := { s with turns := s.turns.tail, turnCount := s.turnCount + 1 }

end Sys2Proof.Machine
end

