-- ==== Sys2Proof/Machine/Alu.lean ====
section
/-! DEFINITION. Register loads, arithmetic, logic, shifts and the random byte (spec/42_alu.md). Operands are read before any write (R141). -/

namespace Sys2Proof.Machine

/-- 6xkk (R142). -/
def execLdImm (x : Reg) (kk : Byte) (s : State) : Host.Outcome State Fault Refusal :=
  complete (s.setReg x kk) .next

/-- 7xkk (R143): wraps, no flag. -/
def execAddImm (x : Reg) (kk : Byte) (s : State) : Host.Outcome State Fault Refusal :=
  complete (s.setReg x (s.reg x + kk)) .next

/-- 8xy0 (R144). -/
def execLdReg (x y : Reg) (s : State) : Host.Outcome State Fault Refusal :=
  complete (s.setReg x (s.reg y)) .next

/-- 8xy1 (R145, R148). -/
def execOrReg (x y : Reg) (s : State) : Host.Outcome State Fault Refusal :=
  complete (s.setReg x (s.reg x ||| s.reg y)) .next

/-- 8xy2 (R146, R148). -/
def execAndReg (x y : Reg) (s : State) : Host.Outcome State Fault Refusal :=
  complete (s.setReg x (s.reg x &&& s.reg y)) .next

/-- 8xy3 (R147, R148). -/
def execXorReg (x y : Reg) (s : State) : Host.Outcome State Fault Refusal :=
  complete (s.setReg x (s.reg x ^^^ s.reg y)) .next

/-- 8xy4 (R149). -/
def execAddReg (x y : Reg) (s : State) : Host.Outcome State Fault Refusal :=
  complete (s.setFlagAndReg x (carryFlag (s.reg x) (s.reg y)) (s.reg x + s.reg y)) .next

/-- 8xy5 (R151, R152). -/
def execSubReg (x y : Reg) (s : State) : Host.Outcome State Fault Refusal :=
  complete (s.setFlagAndReg x (greaterFlag (s.reg x) (s.reg y)) (s.reg x - s.reg y)) .next

/-- 8xy6 (R154, R155): `V[y]` is not read. -/
def execShr (x _y : Reg) (s : State) : Host.Outcome State Fault Refusal :=
  complete (s.setFlagAndReg x (lowBitFlag (s.reg x)) (s.reg x >>> 1)) .next

/-- 8xy7 (R153, R152). -/
def execSubnReg (x y : Reg) (s : State) : Host.Outcome State Fault Refusal :=
  complete (s.setFlagAndReg x (greaterFlag (s.reg y) (s.reg x)) (s.reg y - s.reg x)) .next

/-- 8xyE (R156, R155): `V[y]` is not read. -/
def execShl (x _y : Reg) (s : State) : Host.Outcome State Fault Refusal :=
  complete (s.setFlagAndReg x (highBitFlag (s.reg x)) (s.reg x <<< 1)) .next

/-- Cxkk (R158). -/
def execRnd (x : Reg) (kk : Byte) (s : State) : Host.Outcome State Fault Refusal :=
  complete (s.setReg x (s.turn.rnd &&& kk)) .next

end Sys2Proof.Machine
end

