-- ==== Sys2Proof/Machine/Control.lean ====
section
/-! DEFINITION. Jumps, call and return, register skips (spec/41_control_flow.md). -/

namespace Sys2Proof.Machine

/-- 00EE (R121): the slot keeps its value; pc becomes the popped address. -/
def execRet (s : State) : Host.Outcome State Fault Refusal :=
  if s.SP = 0 then raise s .stackUnderflow
  else complete { s with SP := s.SP - 1 } (.jump s.stack[s.SP])

/-- 1nnn (R122). -/
def execJp (nnn : BitVec 12) (s : State) : Host.Outcome State Fault Refusal :=
  complete s (.jump (zext16 nnn))

/-- 2nnn (R123). -/
def execCall (nnn : BitVec 12) (s : State) : Host.Outcome State Fault Refusal :=
  if s.SP = 15 then raise s .stackOverflow
  else
    complete { s with SP := s.SP + 1, stack := s.stack.set (s.SP + 1 : Fin 16) (s.pc + 2) } (.jump (zext16 nnn))

/-- Bnnn (R124): no masking of the sum. -/
def execJpV0 (nnn : BitVec 12) (s : State) : Host.Outcome State Fault Refusal :=
  complete s (.jump (zext16 nnn + zext16 (s.reg 0)))

/-- 3xkk (R125). -/
def execSeImm (x : Reg) (kk : Byte) (s : State) : Host.Outcome State Fault Refusal :=
  complete s (skipIf (s.reg x == kk))

/-- 4xkk (R126). -/
def execSneImm (x : Reg) (kk : Byte) (s : State) : Host.Outcome State Fault Refusal :=
  complete s (skipIf (s.reg x != kk))

/-- 5xy0 (R127). -/
def execSeReg (x y : Reg) (s : State) : Host.Outcome State Fault Refusal :=
  complete s (skipIf (s.reg x == s.reg y))

/-- 9xy0 (R128). -/
def execSneReg (x y : Reg) (s : State) : Host.Outcome State Fault Refusal :=
  complete s (skipIf (s.reg x != s.reg y))

end Sys2Proof.Machine
end

