-- ==== Sys2Proof/Machine/Operands.lean ====
section
/-! DEFINITION. The operand forms: key numbers, decimal digits, glyph addresses, sprite coordinates, address ranges (spec/30_encoding.md R83; spec/43_index_memory.md R181). -/

namespace Sys2Proof.Machine

/-- The effective addresses `base`, …, `base + count - 1`, exact integers, all exist. An empty range makes no access (spec/20_memory.md R58, R59). -/
def rangeFits (base : Word) (count : Nat) : Bool :=
  decide (count = 0 ∨ base.toNat + count - 1 ≤ 0xFFF)

/-- The key a register value names: the whole byte, not its low nibble (spec/44_input_timers.md R192). -/
def keyOf (v : Byte) : Option (Fin 16) := if h : v.toNat < 16 then some ⟨v.toNat, h⟩ else none

/-- `{ k in 0..15 | Keys[k] }` (R194). -/
def pressedKeys (keys : Vector Bool 16) : List (Fin 16) := (List.finRange 16).filter (fun k => keys[k])

/-- `FX0A_PICK(P)`: the member of the pressed set that `pick` selects; every member is selected by some `pick`. None where no key is pressed (R194, R196; notes/assumptions/4.md). -/
def pickKey (keys : Vector Bool 16) (pick : Nat) : Option (Fin 16) :=
  (pressedKeys keys)[pick % (pressedKeys keys).length]?

/-- `zext_8` of a key number (R194). -/
def keyByte (k : Fin 16) : Byte := BitVec.ofNat 8 k.val

/-- Hundreds, tens and ones (spec/43_index_memory.md R176). -/
def decimalDigits (a : Byte) : List Byte :=
  [BitVec.ofNat 8 (a.toNat / 100), BitVec.ofNat 8 (a.toNat / 10 % 10), BitVec.ofNat 8 (a.toNat % 10)]

/-- `0x050 + 5 × zext_16(v)`, not masked (R174, R175). -/
def glyphAddress (v : Byte) : Word :=
  BitVec.ofNat 16 (Config.fontBase + Config.glyphBytes * v.toNat)

/-- `(a + c) mod 64`, a pixel's column (spec/40_display.md R112). -/
def pixelColumn (a : Byte) (c : Nat) : Fin 64 := Fin.ofNat 64 (a.toNat + c)

/-- `(b + r) mod 32`, a pixel's row (R112). -/
def pixelRow (b : Byte) (r : Nat) : Fin 32 := Fin.ofNat 32 (b.toNat + r)

/-- Column `c` of a sprite row is bit 7 - c, the most significant bit leftmost (R113). PRESUMED: the spec marks the order as general knowledge (notes/assumptions/15.md). -/
def spriteBit (row : Byte) (c : Nat) : Bool := row.getLsbD (7 - c)

end Sys2Proof.Machine
end

