-- ==== Sys2Proof/Machine/Display.lean ====
section
/-! DEFINITION. The display instructions 00E0 and Dxyn (spec/40_display.md). -/

namespace Sys2Proof.Machine

/-- A framebuffer with every pixel off (R110). -/
def blankFramebuffer : Framebuffer := Vector.replicate 64 (Vector.replicate 32 false)

/-- `xor_pixel(px, py)`: flip the pixel; true exactly when it was lit (R111). -/
def xorPixel (fb : Framebuffer) (px : Fin 64) (py : Fin 32) : Framebuffer × Bool :=
  (fb.set px (fb[px].set py (!fb[px][py])), fb[px][py])

/-- One pixel of a sprite whose origin is `(a, b)`: row `r`, column `c`. The pair is the framebuffer and `collide`. -/
def drawPixel (a b row : Byte) (r c : Nat) (acc : Framebuffer × Bool) : Framebuffer × Bool :=
  if spriteBit row c then
    let flipped := xorPixel acc.1 (pixelColumn a c) (pixelRow b r)
    (flipped.1, acc.2 || flipped.2)
  else acc

/-- Row `r`, columns 0 to 7. -/
def drawRow (a b row : Byte) (r : Nat) (acc : Framebuffer × Bool) : Framebuffer × Bool :=
  [0, 1, 2, 3, 4, 5, 6, 7].foldl (fun acc c => drawPixel a b row r c acc) acc

/-- The rows from number `r` on. -/
def drawRows (a b : Byte) : (rows : List Byte) → (r : Nat) → Framebuffer × Bool → Framebuffer × Bool
  | [], _, acc => acc
  | row :: rows, r, acc => drawRows a b rows (r + 1) (drawRow a b row r acc)

/-- The whole sprite: the new framebuffer and whether a lit pixel was turned off (R112). -/
def drawSprite (fb : Framebuffer) (a b : Byte) (rows : List Byte) : Framebuffer × Bool :=
  drawRows a b rows 0 (fb, false)

/-- 00E0 (R110). -/
def execCls (s : State) : Host.Outcome State Fault Refusal :=
  complete { s with FB := blankFramebuffer, changed := true } .next

/-- Dxyn (R112, R114, R115). The origin is read before VF is written. -/
def execDrw (x y : Reg) (n : Fin 16) (s : State) : Host.Outcome State Fault Refusal :=
  if rangeFits s.I n.val then
    let drawn := drawSprite s.FB (s.reg x) (s.reg y) (Memory.readBytes s.mem s.I.toNat n.val)
    complete (State.setFlag { s with FB := drawn.1, changed := true } (collisionFlag drawn.2)) .next
  else raise s .memoryOutOfBounds

end Sys2Proof.Machine
end

