-- ==== Sys2Proof/Machine/IndexMemory.lean ====
section
/-! DEFINITION. The address register and the memory instructions (spec/43_index_memory.md). A memory instruction checks its whole range before its first access (spec/20_memory.md R59) and leaves I as it was (R171). -/

namespace Sys2Proof.Machine

/-- `for i in 0 .. n-1: V[i] <- MemRead(base + i, 1)` (R180). -/
def loadInto (m : Memory) (base : Nat) : Nat → Vector Byte 16 → Vector Byte 16
  | 0, v => v
  | n + 1, v => (loadInto m base n v).setIfInBounds n (Memory.read m (base + n))

/-- Annn (R170). -/
def execLdI (nnn : BitVec 12) (s : State) : Host.Outcome State Fault Refusal :=
  complete { s with I := zext16 nnn } .next

/-- Fx1E (R172, R173): mod 2^16, VF untouched. -/
def execAddI (x : Reg) (s : State) : Host.Outcome State Fault Refusal :=
  complete { s with I := s.I + zext16 (s.reg x) } .next

/-- Fx29 (R174, R175). -/
def execLdF (x : Reg) (s : State) : Host.Outcome State Fault Refusal :=
  complete { s with I := glyphAddress (s.reg x) } .next

/-- Fx33 (R176). -/
def execLdB (x : Reg) (s : State) : Host.Outcome State Fault Refusal :=
  if rangeFits s.I 3 then
    complete { s with mem := Memory.writeBytes s.mem s.I.toNat (decimalDigits (s.reg x)) } .next
  else raise s .memoryOutOfBounds

/-- Fx55 (R178): V0 to Vx inclusive. -/
def execStoreRegs (x : Reg) (s : State) : Host.Outcome State Fault Refusal :=
  if rangeFits s.I (x.val + 1) then
    complete { s with mem := Memory.writeBytes s.mem s.I.toNat (s.V.toList.take (x.val + 1)) } .next
  else raise s .memoryOutOfBounds

/-- Fx65 (R180): V0 to Vx inclusive. -/
def execLoadRegs (x : Reg) (s : State) : Host.Outcome State Fault Refusal :=
  if rangeFits s.I (x.val + 1) then
    complete { s with V := loadInto s.mem s.I.toNat (x.val + 1) s.V } .next
  else raise s .memoryOutOfBounds

end Sys2Proof.Machine
end

