-- ==== Sys2Proof/Machine/KeysTimers.lean ====
section
/-! DEFINITION. The key and timer instructions (spec/44_input_timers.md). -/

namespace Sys2Proof.Machine

/-- Ex9E (R190, R192). -/
def execSkp (x : Reg) (s : State) : Host.Outcome State Fault Refusal :=
  match keyOf (s.reg x) with
  | some k => complete s (skipIf s.turn.keys[k])
  | none => raise s .keyOutOfRange

/-- ExA1 (R191, R192). -/
def execSknp (x : Reg) (s : State) : Host.Outcome State Fault Refusal :=
  match keyOf (s.reg x) with
  | some k => complete s (skipIf (!s.turn.keys[k]))
  | none => raise s .keyOutOfRange

/-- Fx07 (R193). -/
def execLdFromDT (x : Reg) (s : State) : Host.Outcome State Fault Refusal :=
  complete (s.setReg x s.DT) .next

/-- `V[x] <- zext_8(FX0A_PICK(P))` where a key is pressed, else no change (R194, R195). -/
def State.takeKey (s : State) (x : Reg) : State :=
  match pickKey s.turn.keys s.turn.pick with
  | some k => s.setReg x (keyByte k)
  | none => s

/-- Fx0A (R194): completes at once where a key is pressed, else enters AwaitingKey. -/
def execLdKey (x : Reg) (s : State) : Host.Outcome State Fault Refusal :=
  complete (s.takeKey x) (if (pickKey s.turn.keys s.turn.pick).isSome then .next else .wait x)

/-- `KeyWaitPoll(x, Keys)` (R195): it fetches nothing. -/
def State.keyWaitPoll (s : State) (x : Reg) : State :=
  match pickKey s.turn.keys s.turn.pick with
  | some k => { s.setReg x (keyByte k) with pc := s.pc + 2, mode := .running }
  | none => s

/-- Fx15 (R197). -/
def execLdDT (x : Reg) (s : State) : Host.Outcome State Fault Refusal :=
  complete { s with DT := s.reg x } .next

/-- Fx18 (R198). -/
def execLdST (x : Reg) (s : State) : Host.Outcome State Fault Refusal :=
  complete { s with ST := s.reg x } .next

end Sys2Proof.Machine
end

