-- ==== Sys2Proof/WellFormed.lean ====
section
/-! DEFINITION. The checks on what enters the machine from outside: an instruction term, the spelling an assembler gives the two shifts, and a program image. Words that are no instruction are refused by Decode.lean. -/

namespace Sys2Proof

/-- Every operand lies in its field (spec/30_encoding.md R81, R86). The operand types of `Instr` have exactly the fields' widths and R86 makes every field value legal, so every term passes: a term with a field out of range cannot be written. -/
def Instr.wellFormed : Instr → Bool
  | .cls | .ret => true
  | .jp nnn | .call nnn | .ldI nnn | .jpV0 nnn => decide (nnn.toNat < 4096)
  | .seImm x kk | .sneImm x kk | .ldImm x kk | .addImm x kk | .rnd x kk =>
    decide (x.val < 16) && decide (kk.toNat < 256)
  | .seReg x y | .ldReg x y | .orReg x y | .andReg x y | .xorReg x y | .addReg x y | .subReg x y
  | .shr x y | .subnReg x y | .shl x y | .sneReg x y =>
    decide (x.val < 16) && decide (y.val < 16)
  | .drw x y n => decide (x.val < 16) && decide (y.val < 16) && decide (n.val < 16)
  | .skp x | .sknp x | .ldFromDT x | .ldKey x | .ldDT x | .ldST x | .addI x | .ldF x | .ldB x
  | .storeRegs x | .loadRegs x => decide (x.val < 16)

/-- The spelling of an assembler: SHR and SHL carry y = 0 (spec/30_encoding.md R97). The hardware accepts the other spellings too (R86). -/
def Instr.asAssembled : Instr → Bool
  | .shr _ y | .shl _ y => decide (y = 0)
  | .cls | .ret | .jp _ | .call _ | .seImm _ _ | .sneImm _ _ | .seReg _ _ | .ldImm _ _ | .addImm _ _
  | .ldReg _ _ | .orReg _ _ | .andReg _ _ | .xorReg _ _ | .addReg _ _ | .subReg _ _ | .subnReg _ _
  | .sneReg _ _ | .ldI _ | .jpV0 _ | .rnd _ _ | .drw _ _ _ | .skp _ | .sknp _ | .ldFromDT _ | .ldKey _
  | .ldDT _ | .ldST _ | .addI _ | .ldF _ | .ldB _ | .storeRegs _ | .loadRegs _ => true

/-- A program image fits the program region (spec/20_memory.md R56). -/
def romFits (bytes : List Byte) : Bool := decide (bytes.length ≤ Config.progMax)

end Sys2Proof
end

