-- ==== Sys2Proof/Machine/HostOps.lean ====
section
/-! DEFINITION. The operations the host invokes beside Step: Reset, LoadFont, LoadRom and TimerTick (spec/60_exceptions.md R230). -/

namespace Sys2Proof.Machine

/-! ## Reset and boot (spec/70_reset_and_hazards.md R250, R251) -/

/-- `Reset()`: R37's values with every memory byte 0x00. What the host will give to coming steps stays the host's. -/
def State.resetOperation (s : State) : State :=
  { State.reset with mem := Memory.zeroed, turns := s.turns, turnCount := s.turnCount }

/-- The default `FONT` with its length (spec/20_memory.md R54). -/
def fontParameter : Vector Byte 80 := ⟨defaultFont.toArray, by decide⟩

/-- `load_fontset()` for a value of the parameter `FONT` (R55). -/
def State.loadFont (s : State) (font : Vector Byte 80) : State :=
  { s with mem := Memory.writeBytes s.mem Config.fontBase font.toList }

/-- `load_rom(bytes)`: verbatim from 0x200 on (R56), or nothing written and Halted(RomTooLarge) (R57, R212). -/
def State.loadRom (s : State) (bytes : List Byte) : State :=
  if romFits bytes then { s with mem := Memory.writeBytes s.mem Config.progBase bytes }
  else { s with mode := .halted ⟨.romTooLarge, none, BitVec.ofNat 16 Config.progBase⟩ }

/-- `Reset(); LoadFont(); LoadRom(bytes)` (R251). -/
def State.boot (s : State) (font : Vector Byte 80) (bytes : List Byte) : State :=
  (s.resetOperation.loadFont font).loadRom bytes

/-! ## Timers (spec/60_exceptions.md R222 to R226, R232) -/

/-- Whether a TimerTick counts in this mode. -/
def State.timersRun (s : State) : Bool :=
  match s.mode with
  | .running => true
  | .awaitingKey _ => Config.timersRunInKeyWait
  | .halted _ => false

/-- One count of one timer, clamped at zero. -/
def countdown (v : Byte) : Byte := if v = 0 then 0 else v - 1

/-- `n` counts of one timer. -/
def countdownBy : Nat → Byte → Byte
  | 0, v => v
  | n + 1, v => countdownBy n (countdown v)

/-- `TimerTick()` (R225). -/
def State.timerTick (s : State) : State :=
  { s with DT := if s.timersRun then countdown s.DT else s.DT
           ST := if s.timersRun then countdown s.ST else s.ST }

/-- `n` TimerTicks in a row; a tick never changes the mode, so all of them count or none does. -/
def State.timerTicks (s : State) (n : Nat) : State :=
  { s with DT := if s.timersRun then countdownBy n s.DT else s.DT
           ST := if s.timersRun then countdownBy n s.ST else s.ST }

end Sys2Proof.Machine
end

