-- ==== Sys2Proof/Machine/Cycle.lean ====
section
/-! DEFINITION. The instruction step and its place in the host's schedule (spec/30_encoding.md R90, R91; spec/60_exceptions.md R231). -/

namespace Sys2Proof.Machine

/-- The fetch bound on the exact integer pc + 1 (spec/20_memory.md R60). -/
def fetchFits (pc : Word) : Bool := decide (pc.toNat + 1 ≤ 0xFFF)

/-- `Cycle(Keys, RND)` (R91): fetch, decode, execute, PC effect, with the faults in the order of R215. -/
def cycle (s : State) : Host.Outcome State Fault Refusal :=
  if fetchFits s.pc then
    match decodeWord s.opcode with
    | some i => exec i s
    | none => raise s .unknownOpcode
  else .next (s.halt .fetchOutOfBounds none)

/-- `Step(Keys, RND)` (R90). -/
def stepOperation (s : State) : Host.Outcome State Fault Refusal :=
  match s.mode with
  | .halted _ => .next s
  | .awaitingKey x => .next (s.clearChanged.keyWaitPoll x)
  | .running => cycle s.clearChanged

/-- The end of a turn begun in `s`: the host's TimerTicks after the Step, then the next turn. -/
def closeTurn (s t : State) : State := (t.timerTicks s.turn.ticks).endTurn

/-- One turn: a Step and the TimerTicks the host invokes before the next Step. A Halted core changes nothing (R93, R232). -/
def runTurn (s : State) : Host.Outcome State Fault Refusal :=
  match s.mode with
  | .halted _ => .next s
  | .awaitingKey _ | .running =>
    match stepOperation s with
    | .next t => .next (closeTurn s t)
    | .fault f => .fault f
    | .refused r => .refused r

/-- Place the two bytes of a word where the next fetch reads them: at pc, or at the entry point where pc is too high to fetch from; the mode becomes Running, in which a Step fetches. -/
def State.placeWord (s : State) (w : Word) : State :=
  let pc : Word := if fetchFits s.pc then s.pc else 0x200
  { s with pc := pc, mode := .running, mem := Memory.writeBytes s.mem pc.toNat (bytesOfWord w) }

end Sys2Proof.Machine
end

