-- ==== Sys2Proof/Machine/Step.lean ====
section
/-! DEFINITION. The step function and the placing of one instruction for it. -/

namespace Sys2Proof.Machine

/-- One step of the machine: one Step of the core and the TimerTicks that follow it (notes/assumptions/2.md). -/
def step (s : State) : Host.Outcome State Fault Refusal := runTurn s

/-- `s` with one instruction's word stored where `step` fetches next. Every instruction is 16 bits (spec/30_encoding.md R80), so `nbits` adds nothing. -/
def State.withFetchWord (s : State) (_nbits w : Nat) : State := s.placeWord (BitVec.ofNat 16 w)

end Sys2Proof.Machine
end

