-- ==== Sys2Proof/Safety.lean ====
section
/-! DEFINITION. The terms in which claims about the machine are stated: what a step leaves unchanged, how a fault looks, when an instruction faults or skips, and the invariant. -/

namespace Sys2Proof.Machine

/-! ## What changes -/

/-- The components of the state (spec/10_state.md R20); `inputs` is the model's own `turns` and `turnCount`. -/
inductive Component where
  | V | I | pc | SP | stack | DT | ST | FB | changed | mode | mem | inputs
  deriving DecidableEq, Repr

/-- A component is the same in `t` as in `s`. Memory is compared by reading every address. -/
def Unchanged (s t : State) : Component → Prop
  | .V => ∀ r : Reg, t.V[r] = s.V[r]
  | .I => t.I = s.I
  | .pc => t.pc = s.pc
  | .SP => t.SP = s.SP
  | .stack => t.stack = s.stack
  | .DT => t.DT = s.DT
  | .ST => t.ST = s.ST
  | .FB => t.FB = s.FB
  | .changed => t.changed = s.changed
  | .mode => t.mode = s.mode
  | .mem => ∀ a : Nat, Memory.read t.mem a = Memory.read s.mem a
  | .inputs => t.turns = s.turns ∧ t.turnCount = s.turnCount

/-- From `s` to `t` nothing changes but, possibly, the listed components. -/
def ChangesOnly (list : List Component) (s t : State) : Prop := ∀ c : Component, c ∉ list → Unchanged s t c

/-- Every register outside the list is the same in `t` as in `s`. -/
def RegistersKept (written : List Reg) (s t : State) : Prop := ∀ r : Reg, r ∉ written → t.V[r] = s.V[r]

/-- Every byte outside `base`, …, `base + count - 1` reads in `t` as in `s`. -/
def MemoryKeptOutside (base count : Nat) (s t : State) : Prop :=
  ∀ a : Nat, (a < base ∨ base + count ≤ a) → Memory.read t.mem a = Memory.read s.mem a

/-- A fault (spec/30_encoding.md R96; spec/60_exceptions.md R211, R212, R214): Changed is 0, the mode is `Halted(cause, opcode, pc)`, and no other component of the core changes. -/
def HaltsWith (cause : FaultCause) (opcode : Option Word) (s t : State) : Prop :=
  t.mode = .halted ⟨cause, opcode, s.pc⟩ ∧ t.changed = false ∧ ChangesOnly [.mode, .changed, .inputs] s t

/-- The fault of the instruction at pc, before the host's turn ends. -/
def InstructionFaults (cause : FaultCause) (s t : State) : Prop :=
  HaltsWith cause (some s.opcode) s t ∧ Unchanged s t .inputs

/-- The mode is Halted. -/
def State.isHalted (s : State) : Bool :=
  match s.mode with
  | .halted _ => true
  | .running | .awaitingKey _ => false

/-- A run of `k` steps from `s` ends in a next state that is not Halted. -/
def RunsSafely (k : Nat) (s : State) : Prop :=
  ∃ t : State, Sys2Proof.core.run k s = .next t ∧ t.isHalted = false

/-! ## When an instruction faults or skips -/

/-- Some address of the range is above 0xFFF (spec/20_memory.md R59). -/
def rangeOverruns (base : Word) (count : Nat) : Prop := 0 < count ∧ 0xFFF < base.toNat + count - 1

/-- The instruction's own fault cause in the state `s` (spec/60_exceptions.md R213), none where it does not fault. -/
def FaultCondition (i : Instr) (s : State) : FaultCause → Prop
  | .stackOverflow => (∃ nnn, i = .call nnn) ∧ s.SP.val = 15
  | .stackUnderflow => i = .ret ∧ s.SP.val = 0
  | .memoryOutOfBounds =>
    (∃ x y n, i = .drw x y n ∧ rangeOverruns s.I n.val) ∨ (∃ x, i = .ldB x ∧ rangeOverruns s.I 3) ∨
      (∃ x, (i = .storeRegs x ∨ i = .loadRegs x) ∧ rangeOverruns s.I (x.val + 1))
  | .keyOutOfRange => ∃ x, (i = .skp x ∨ i = .sknp x) ∧ s.V[x].toNat > 0xF
  | .fetchOutOfBounds | .unknownOpcode | .romTooLarge => False

/-- The fault cause of a Running step (R213, R215): the fetch first, then decode, then the instruction. -/
def StepFaultCondition (s : State) (cause : FaultCause) : Prop :=
  (s.pc.toNat + 1 > 0xFFF ∧ cause = .fetchOutOfBounds) ∨
  (s.pc.toNat + 1 ≤ 0xFFF ∧ decodeWord s.opcode = none ∧ cause = .unknownOpcode) ∨
  (s.pc.toNat + 1 ≤ 0xFFF ∧ ∃ i, decodeWord s.opcode = some i ∧ FaultCondition i s cause)

/-- The skip condition of a skip-class instruction holds (spec/30_encoding.md R94, R95). -/
def SkipHolds (i : Instr) (s : State) : Prop :=
  (∃ x kk, i = .seImm x kk ∧ s.V[x] = kk) ∨ (∃ x kk, i = .sneImm x kk ∧ s.V[x] ≠ kk) ∨
  (∃ x y, i = .seReg x y ∧ s.V[x] = s.V[y]) ∨ (∃ x y, i = .sneReg x y ∧ s.V[x] ≠ s.V[y]) ∨
  (∃ x, i = .skp x ∧ ∃ k : Fin 16, k.val = s.V[x].toNat ∧ s.turn.keys[k] = true) ∨
  (∃ x, i = .sknp x ∧ ∃ k : Fin 16, k.val = s.V[x].toNat ∧ s.turn.keys[k] = false)

/-- The instructions whose PC effect is a Jump (R94). -/
def JumpsTo (i : Instr) (s : State) (target : Word) : Prop :=
  (∃ nnn, (i = .jp nnn ∨ i = .call nnn) ∧ target = zext16 nnn) ∨
  (∃ nnn, i = .jpV0 nnn ∧ target = zext16 nnn + zext16 s.V[0]) ∨ (i = .ret ∧ target = s.stack[s.SP])

/-! ## The display -/

/-- The sprite of `Dxyn` in state `s` has a 1 bit on the pixel (spec/40_display.md R112, R113). -/
def SpriteCovers (x y : Reg) (n : Fin 16) (s : State) (px : Fin 64) (py : Fin 32) : Prop :=
  ∃ r c : Nat, r < n.val ∧ c < 8 ∧ px.val = (s.V[x].toNat + c) % 64 ∧ py.val = (s.V[y].toNat + r) % 32 ∧
    (Memory.read s.mem (s.I.toNat + r)).getLsbD (7 - c) = true

/-! ## The keys -/

/-- Some key of the snapshot given with the step is pressed. -/
def SomeKeyPressed (s : State) : Prop := ∃ k : Fin 16, s.turn.keys[k] = true

/-! ## The inputs -/

/-- The same state with other inputs of the coming steps. -/
def State.withInputs (s : State) (turns : List Turn) (turnCount : Nat) : State :=
  { s with turns := turns, turnCount := turnCount }

/-- The instruction that reads `RND` (spec/60_exceptions.md R228). -/
def ReadsRandom (i : Instr) : Prop := ∃ x kk, i = .rnd x kk

/-- The instructions that read `Keys` (spec/44_input_timers.md). -/
def ReadsKeys (i : Instr) : Prop := ∃ x, i = .skp x ∨ i = .sknp x ∨ i = .ldKey x

/-- The instruction that makes the choice `FX0A_PICK`. -/
def PicksKey (i : Instr) : Prop := ∃ x, i = .ldKey x

/-! ## The invariant -/

/-- What every step keeps: memory is in its canonical form; pc is at most 0x10FE, the highest jump target (spec/41_control_flow.md R124), and the stack holds return addresses, at most 0x1000 (R123); a wait for a key stands at an address that could be fetched; and a Halted core has Changed = 0 and stands at the address its diagnostic names (spec/60_exceptions.md R211, R212). -/
structure State.Inv (s : State) : Prop where
  memory : Memory.wf s.mem = true
  pcReach : s.pc.toNat ≤ 0x10FE
  returnAddresses : ∀ j : Fin 16, s.stack[j].toNat ≤ 0x1000
  waitFetched : ∀ x, s.mode = .awaitingKey x → s.pc.toNat ≤ 0xFFE
  haltPlace : ∀ d, s.mode = .halted d → d.pc = s.pc ∧ s.changed = false

end Sys2Proof.Machine
end

