-- ==== Sys2Proof/Certificates/Slice0/Obligations.lean ====
section
/-! DEFINITION. The statements about the machine, for the provers. -/

open Sys2Proof Sys2Proof.Machine

/-! ## Encoding (spec/30_encoding.md) -/

/-- Decoding the word of an instruction gives the instruction back, for every operand of every row (R81, R82, R85, R86). That it gives back y of 8xy6 and 8xyE, which R86 says is ignored, is the model's choice to keep y in the term (notes/assumptions/24.md). -/
def Obligations.DecodeInvertsEncode : Prop :=
  ∀ i : Instr, decodeWord (encode i) = some i

/-- Every word that decodes is the word of the instruction it decodes to: no bit of it is dropped (the fields of R81, the rows of R85). For 8xy6 and 8xyE with y not 0 this rests on the model's choice to keep y in the term (notes/assumptions/24.md): R86 says that all 16 values of y select the same instruction. -/
def Obligations.EncodeInvertsDecode : Prop :=
  ∀ (w : Word) (i : Instr), decodeWord w = some i → encode i = w

/-- "No two rows match the same word." (R85) -/
def Obligations.OpcodeRowsAreDisjoint : Prop :=
  ∀ (w : Word) (r₁ r₂ : OpcodeRow), r₁ ∈ opcodeMap → r₂ ∈ opcodeMap →
    r₁.fits w = true → r₂.fits w = true → r₁.mnemonic = r₂.mnemonic

/-- The unknown words are exactly those R87 lists, said by the word's value and not by the opcode map. R87 is marked derived. -/
def Obligations.UnknownWordsAreTheListedOnes : Prop :=
  ∀ w : Word, decodeWord w = none ↔
    (w.toNat / 4096 = 0 ∧ w.toNat ≠ 0x00E0 ∧ w.toNat ≠ 0x00EE) ∨
    (w.toNat / 4096 = 5 ∧ w.toNat % 16 ≠ 0) ∨
    (w.toNat / 4096 = 8 ∧ w.toNat % 16 ∈ [8, 9, 10, 11, 12, 13, 15]) ∨
    (w.toNat / 4096 = 9 ∧ w.toNat % 16 ≠ 0) ∨
    (w.toNat / 4096 = 14 ∧ w.toNat % 256 ∉ [0x9E, 0xA1]) ∨
    (w.toNat / 4096 = 15 ∧ w.toNat % 256 ∉ [0x07, 0x0A, 0x15, 0x18, 0x1E, 0x29, 0x33, 0x55, 0x65])

/-- Words written out from the spec's encodings decode to what they stand for, one or more of each family; the unknown words of vectors TD1, TD4 and TD6 do not decode. The y in the term of 0x8126 is the model's choice (notes/assumptions/24.md). -/
def Obligations.SpecWordsDecode : Prop :=
  decodeWord 0x00E0 = some .cls ∧ decodeWord 0xD125 = some (.drw 1 2 5) ∧
  decodeWord 0x00EE = some .ret ∧ decodeWord 0x2300 = some (.call 0x300) ∧
  decodeWord 0xBFFF = some (.jpV0 0xFFF) ∧ decodeWord 0x9120 = some (.sneReg 1 2) ∧
  decodeWord 0x6A03 = some (.ldImm 0xA 0x03) ∧ decodeWord 0x8F24 = some (.addReg 0xF 2) ∧
  decodeWord 0x8126 = some (.shr 1 2) ∧ decodeWord 0xF133 = some (.ldB 1) ∧
  decodeWord 0xFF65 = some (.loadRegs 0xF) ∧ decodeWord 0xE0A1 = some (.sknp 0) ∧
  decodeWord 0xF00A = some (.ldKey 0) ∧ decodeWord 0x0000 = none ∧ decodeWord 0x00EF = none ∧
  decodeWord 0x8128 = none

/-- The fetched word is the two bytes at pc and pc + 1, the first in bits 15 to 8, at any pc (20_memory.md R60, R62); the decoder reads the same instruction from the bytes and leaves what follows them. -/
def Obligations.FetchReadsTwoBytesBigEndian : Prop :=
  ∀ (s : State) (i : Instr) (rest : List Byte),
    s.opcode.toNat = 256 * (Memory.read s.mem s.pc.toNat).toNat + (Memory.read s.mem (s.pc.toNat + 1)).toNat ∧
    (decodeWord s.opcode = some i ↔
      decode (Memory.read s.mem s.pc.toNat :: Memory.read s.mem (s.pc.toNat + 1) :: rest) = .ok (i, rest))

/-! ## The step (spec/30_encoding.md R90, R91) -/

/-- A Running step whose word can be fetched and decodes to `i` is `exec i` on the state with Changed cleared, followed by the TimerTicks of the host's turn; the turn is then over (decision D1; notes/assumptions/2.md, 3.md). -/
def Obligations.RunningStepRunsTheDecodedInstruction : Prop :=
  ∀ (s : State) (i : Instr), s.mode = .running → s.pc.toNat + 1 ≤ 0xFFF → decodeWord s.opcode = some i →
    (∀ u : State, exec i { s with changed := false } = .next u →
      step s = .next ((u.timerTicks s.turn.ticks).endTurn)) ∧
    (∀ f : Fault, exec i { s with changed := false } = .fault f → step s = .fault f) ∧
    (∀ r : Refusal, exec i { s with changed := false } = .refused r → step s = .refused r)

/-- A step that cannot fetch halts with FetchOutOfBounds and no opcode; one that fetches an unknown word halts with UnknownOpcode and that word (20_memory.md R60; R87, R96). What a fault leaves is the spec's decision D7 (notes/assumptions/1.md). -/
def Obligations.FetchAndDecodeFaultsHalt : Prop :=
  ∀ s : State, s.mode = .running →
    (s.pc.toNat + 1 > 0xFFF → ∃ t, step s = .next t ∧ HaltsWith .fetchOutOfBounds none s t) ∧
    (s.pc.toNat + 1 ≤ 0xFFF → decodeWord s.opcode = none →
      ∃ t, step s = .next t ∧ HaltsWith .unknownOpcode (some s.opcode) s t)

/-- A Halted core changes nothing, by a step or by a TimerTick, for ever (R93; 60_exceptions.md R217, R232). The spec's decision D24 (notes/assumptions/1.md); that the step also leaves the host's turn unused is notes/assumptions/11.md. -/
def Obligations.HaltedIsFinal : Prop :=
  ∀ (k n : Nat) (s : State), s.isHalted = true →
    Sys2Proof.core.run k s = .next s ∧ s.timerTick = s ∧ s.timerTicks n = s

/-- No step of any state, and so no run of any length, ends in a fault or a refusal of the model: every error of the core is the Halted state (60_exceptions.md R210, R211; notes/assumptions/1.md). -/
def Obligations.EveryRunAnswersANextState : Prop :=
  ∀ (k : Nat) (s : State), ∃ t : State, Sys2Proof.core.run k s = .next t

/-- Every fault is precise: a step that halts a core that was not halted changes nothing of it but Changed and Mode, was a Running step, names the address it stood at, and names the fetched word unless the fetch itself failed; no step raises RomTooLarge (R96; 60_exceptions.md R211, R212, R214). The spec's decisions D7 and D27 (notes/assumptions/1.md, 23.md). -/
def Obligations.EveryFaultIsPrecise : Prop :=
  ∀ (s t : State) (d : Diagnostic), s.isHalted = false → step s = .next t → t.mode = .halted d →
    HaltsWith d.cause d.opcode s t ∧ s.mode = .running ∧
    (d.cause = .fetchOutOfBounds → d.opcode = none) ∧
    (d.cause ≠ .fetchOutOfBounds → d.opcode = some s.opcode) ∧ d.cause ≠ .romTooLarge

/-- A Running step halts with a cause exactly where the table of causes and its priority say so (60_exceptions.md R213, R215). It rests on the spec's decisions D7 (a fault halts the core, notes/assumptions/1.md), D8 (the causes, 23.md), D12 (a key number above 15 faults, 19.md), D15 (Dxyn with n = 0 does not, 21.md) and D27 (the whole range is checked, 23.md). -/
def Obligations.AStepFaultsExactlyWhereListed : Prop :=
  ∀ (s : State) (cause : FaultCause), s.mode = .running →
    ((∃ (t : State) (d : Diagnostic), step s = .next t ∧ t.mode = .halted d ∧ d.cause = cause) ↔
      StepFaultCondition s cause)

/-! ## Rules of the whole machine -/

/-- The invariant of the next statement holds in the reset state (10_state.md R37; decision D4, notes/assumptions/8.md). -/
def Obligations.ResetMeetsTheInvariant : Prop := State.reset.Inv

/-- Every step keeps the invariant: canonical memory, pc at most 0x10FE, return addresses at most 0x1000, a key wait at an address that could be fetched, and a Halted core that stands where its diagnostic says with Changed 0 (10_state.md R25, R28; 41_control_flow.md R123, R124; 60_exceptions.md R211, R212). The bound on pc is decision D10, and what a fault leaves is D7 and D24 (notes/assumptions/17.md, 1.md). -/
def Obligations.StepKeepsTheInvariant : Prop :=
  ∀ s t : State, s.Inv → step s = .next t → t.Inv

/-- Stack slot 0 is never written (10_state.md R28, derived; decision D21, notes/assumptions/22.md). -/
def Obligations.StackSlotZeroIsNeverWritten : Prop :=
  ∀ s t : State, step s = .next t → t.stack[(0 : Fin 16)] = s.stack[(0 : Fin 16)]

/-- Which instructions change I, SP, the stack and memory (10_state.md R26, R27, R28; 20_memory.md R63; 43_index_memory.md R171; decisions D14 and D21, notes/assumptions/20.md and 22.md). -/
def Obligations.StorageHasItsWriters : Prop :=
  ∀ (i : Instr) (s t : State), exec i s = .next t →
    (t.I ≠ s.I → (∃ nnn, i = .ldI nnn) ∨ (∃ x, i = .addI x ∨ i = .ldF x)) ∧
    (t.SP ≠ s.SP → i = .ret ∨ ∃ nnn, i = .call nnn) ∧
    (t.stack ≠ s.stack → ∃ nnn, i = .call nnn) ∧
    ((∃ a, Memory.read t.mem a ≠ Memory.read s.mem a) → ∃ x, i = .ldB x ∨ i = .storeRegs x)

/-- The framebuffer is "Mutated only by the clear-screen and draw-sprite opcodes"; Changed is set by them alone; DT and ST are written by Fx15 and Fx18 alone (10_state.md R29 to R32; 40_display.md R115; decision D17, notes/assumptions/21.md). -/
def Obligations.DisplayAndTimersHaveTheirWriters : Prop :=
  ∀ (i : Instr) (s t : State), exec i s = .next t →
    (t.FB ≠ s.FB → i = .cls ∨ ∃ x y n, i = .drw x y n) ∧
    (t.changed = true → s.changed = true ∨ i = .cls ∨ ∃ x y n, i = .drw x y n) ∧
    (t.DT ≠ s.DT → ∃ x, i = .ldDT x) ∧ (t.ST ≠ s.ST → ∃ x, i = .ldST x)

/-- The PC effects of all instructions (R94): an instruction that neither faults nor waits jumps if it is 1nnn, 2nnn, Bnnn or 00EE, and else advances pc by 4 where it is a skip whose condition holds and by 2 elsewhere; one that faults or waits leaves pc. The targets are those of 41_control_flow.md R121 to R124 and the skip conditions those of 41_control_flow.md R125 to R128 and 44_input_timers.md R190, R191. That the target nnn + V0 of Bnnn is not masked is the spec's decision D10 (notes/assumptions/17.md), that 00EE jumps and does not advance is D30 (25.md), that a key number above 15 faults is D12 (19.md), and what a fault leaves is D7 (1.md). -/
def Obligations.PcEffectsAreTheListedOnes : Prop :=
  ∀ (i : Instr) (s t : State), s.mode = .running → exec i s = .next t →
    (t.mode = .running → (∀ target, JumpsTo i s target → t.pc = target) ∧
      ((∀ target, ¬ JumpsTo i s target) →
        (SkipHolds i s → t.pc = s.pc + 4) ∧ (¬ SkipHolds i s → t.pc = s.pc + 2))) ∧
    (t.mode ≠ .running → t.pc = s.pc)

/-- What the host gives with a step reaches only the instructions that read it: RND only Cxkk, Keys only Ex9E, ExA1 and Fx0A, the choice of a key only Fx0A (60_exceptions.md R227, R228; decisions D13, D20 and D28, notes/assumptions/3.md, 4.md and 27.md). -/
def Obligations.InputsReachOnlyTheirReaders : Prop :=
  ∀ (i : Instr) (s t : State) (turns : List Turn) (n : Nat), exec i s = .next t →
    (ReadsRandom i → (s.withInputs turns n).turn.rnd = s.turn.rnd) →
    (ReadsKeys i → (s.withInputs turns n).turn.keys = s.turn.keys) →
    (PicksKey i → (s.withInputs turns n).turn.pick = s.turn.pick) →
    exec i (s.withInputs turns n) = .next (t.withInputs turns n)

/-! ## Display (spec/40_display.md) -/

/-- 00E0 (R110): every pixel 0, Changed 1, nothing else but pc. That Changed is set also where the grid was blank is the spec's decision D17 (R115; notes/assumptions/21.md). -/
def Obligations.ClsBlanksTheScreen : Prop :=
  decodeWord 0b0000000011100000 = some .cls ∧
  ∀ s : State, ∃ t, exec .cls s = .next t ∧ (∀ (px : Fin 64) (py : Fin 32), t.FB[px][py] = false) ∧
    t.changed = true ∧ t.pc = s.pc + 2 ∧ ChangesOnly [.FB, .changed, .pc] s t

/-- Dxyn (R112): every pixel is flipped exactly where the sprite has a 1 bit on it, VF is 1 exactly where a lit pixel was turned off, else 0; a range beyond 0xFFF faults and changes neither FB nor VF. The order of the bits in a row is the spec's decision D6 (notes/assumptions/15.md), that Changed is always set and that n = 0 draws nothing are D17 and D15 (21.md), that I is left as it was is D14 (20.md), and what a fault leaves is D7 and D27 (1.md, 23.md). -/
def Obligations.DrawFlipsTheSpritePixels : Prop :=
  ∀ (x y : Reg) (n : Fin 16) (s : State),
    decodeWord (0xD#4 ++ nibble x ++ nibble y ++ nibble n) = some (.drw x y n) ∧
    (¬ rangeOverruns s.I n.val → ∃ t, exec (.drw x y n) s = .next t ∧
      (∀ (px : Fin 64) (py : Fin 32),
        (SpriteCovers x y n s px py → t.FB[px][py] = !s.FB[px][py]) ∧
        (¬ SpriteCovers x y n s px py → t.FB[px][py] = s.FB[px][py])) ∧
      ((∃ (px : Fin 64) (py : Fin 32), SpriteCovers x y n s px py ∧ s.FB[px][py] = true) → t.V[regF] = 1) ∧
      ((∀ (px : Fin 64) (py : Fin 32), SpriteCovers x y n s px py → s.FB[px][py] = false) → t.V[regF] = 0) ∧
      RegistersKept [regF] s t ∧ t.changed = true ∧ t.pc = s.pc + 2 ∧
      ChangesOnly [.V, .FB, .changed, .pc] s t) ∧
    (rangeOverruns s.I n.val → ∃ t, exec (.drw x y n) s = .next t ∧ InstructionFaults .memoryOutOfBounds s t)

/-- Dxy0 (R114, decisions D15 and D17, notes/assumptions/21.md): no read and so no fault for any I, no pixel changed, VF 0, Changed 1. -/
def Obligations.DrawOfNoRowsOnlyClearsVF : Prop :=
  ∀ (x y : Reg) (s : State), ∃ t, exec (.drw x y 0) s = .next t ∧ t.V[regF] = 0 ∧ t.changed = true ∧
    t.pc = s.pc + 2 ∧ RegistersKept [regF] s t ∧ ChangesOnly [.V, .changed, .pc] s t

/-- The 8 columns of a sprite are distinct modulo 64 and its rows distinct modulo 32, so no pixel is flipped twice (R116, derived). -/
def Obligations.SpritePixelsAreDistinct : Prop :=
  ∀ (a b : Byte) (c c' r r' : Nat), c < 8 → c' < 8 → r < 15 → r' < 15 →
    pixelColumn a c = pixelColumn a c' → pixelRow b r = pixelRow b r' → c = c' ∧ r = r'

/-- Drawing a sprite twice in succession restores the framebuffer, and the second draw reports a collision if the first lit any pixel; x and y are not F, so that the first draw leaves the origin (R117, derived; it also rests on decisions D6 and D14, notes/assumptions/15.md and 20.md). -/
def Obligations.DrawingTwiceRestoresTheScreen : Prop :=
  ∀ (x y : Reg) (n : Fin 16) (s : State), x ≠ regF → y ≠ regF → ¬ rangeOverruns s.I n.val →
    ∃ t u, exec (.drw x y n) s = .next t ∧ exec (.drw x y n) t = .next u ∧ u.FB = s.FB ∧
      ((∃ (px : Fin 64) (py : Fin 32), t.FB[px][py] = true ∧ s.FB[px][py] = false) → u.V[regF] = 1)

/-- A draw after a clear reports no collision (R117, derived; with n = 0 too, decision D15, notes/assumptions/21.md). -/
def Obligations.DrawAfterClearHasNoCollision : Prop :=
  ∀ (x y : Reg) (n : Fin 16) (s : State), ¬ rangeOverruns s.I n.val →
    ∃ t u, exec .cls s = .next t ∧ exec (.drw x y n) t = .next u ∧ u.V[regF] = 0

/-! ## Control flow (spec/41_control_flow.md) -/

/-- 1nnn (R122). -/
def Obligations.JumpGoesToItsTarget : Prop :=
  ∀ (nnn : BitVec 12) (s : State), decodeWord (0x1#4 ++ nnn) = some (.jp nnn) ∧
    ∃ t, exec (.jp nnn) s = .next t ∧ t.pc.toNat = nnn.toNat ∧ ChangesOnly [.pc] s t

/-- Bnnn (R124): the exact sum of nnn and V0, up to 0x10FE; not masked, the spec's decision D10 (notes/assumptions/17.md). -/
def Obligations.JumpWithOffsetAddsV0 : Prop :=
  ∀ (nnn : BitVec 12) (s : State), decodeWord (0xB#4 ++ nnn) = some (.jpV0 nnn) ∧
    ∃ t, exec (.jpV0 nnn) s = .next t ∧ t.pc.toNat = nnn.toNat + s.V[(0 : Reg)].toNat ∧ ChangesOnly [.pc] s t

/-- 2nnn (R123): SP + 1, the return address pc + 2 in that slot, every other slot kept; with SP = 15 StackOverflow and no change. What a fault leaves is the spec's decision D7, and SP as a number is D21 (notes/assumptions/1.md, 22.md). -/
def Obligations.CallPushesTheReturnAddress : Prop :=
  ∀ (nnn : BitVec 12) (s : State), decodeWord (0x2#4 ++ nnn) = some (.call nnn) ∧
    (s.SP.val < 15 → ∃ t, exec (.call nnn) s = .next t ∧ t.SP.val = s.SP.val + 1 ∧ t.stack[t.SP] = s.pc + 2 ∧
      (∀ j : Fin 16, j ≠ t.SP → t.stack[j] = s.stack[j]) ∧ t.pc.toNat = nnn.toNat ∧
      ChangesOnly [.SP, .stack, .pc] s t) ∧
    (s.SP.val = 15 → ∃ t, exec (.call nnn) s = .next t ∧ InstructionFaults .stackOverflow s t)

/-- 00EE (R121): pc becomes the popped address, SP - 1, the slot keeps its value; with SP = 0 StackUnderflow and no change. That it jumps and does not advance is the spec's decision D30, SP as a number is D21, and what a fault leaves is D7 (notes/assumptions/25.md, 22.md, 1.md). -/
def Obligations.ReturnPopsTheAddress : Prop :=
  decodeWord 0b0000000011101110 = some .ret ∧
  ∀ s : State,
    (0 < s.SP.val → ∃ t, exec .ret s = .next t ∧ t.pc = s.stack[s.SP] ∧ t.SP.val + 1 = s.SP.val ∧
      ChangesOnly [.SP, .pc] s t) ∧
    (s.SP.val = 0 → ∃ t, exec .ret s = .next t ∧ InstructionFaults .stackUnderflow s t)

/-- A call and, after any code that leaves SP and the pushed slot as it found them, a return: pc is the call's address plus 2 and SP is as before the call (R129, derived; decisions D21 and D30, notes/assumptions/22.md and 25.md). -/
def Obligations.CallAndReturnRoundTrip : Prop :=
  ∀ (nnn : BitVec 12) (s : State), s.SP.val < 15 →
    ∃ t, exec (.call nnn) s = .next t ∧
      ∀ t' : State, t'.SP = t.SP → t'.stack[t.SP] = t.stack[t.SP] →
        ∃ u, exec .ret t' = .next u ∧ u.pc = s.pc + 2 ∧ u.SP = s.SP

/-- 3xkk and 4xkk (R125, R126). -/
def Obligations.SkipsOnImmediates : Prop :=
  ∀ (x : Reg) (kk : Byte) (s : State),
    decodeWord (0x3#4 ++ nibble x ++ kk) = some (.seImm x kk) ∧
    decodeWord (0x4#4 ++ nibble x ++ kk) = some (.sneImm x kk) ∧
    (∃ t, exec (.seImm x kk) s = .next t ∧ (s.V[x] = kk → t.pc = s.pc + 4) ∧ (s.V[x] ≠ kk → t.pc = s.pc + 2) ∧
      ChangesOnly [.pc] s t) ∧
    (∃ t, exec (.sneImm x kk) s = .next t ∧ (s.V[x] ≠ kk → t.pc = s.pc + 4) ∧ (s.V[x] = kk → t.pc = s.pc + 2) ∧
      ChangesOnly [.pc] s t)

/-- 5xy0 and 9xy0 (R127, R128). -/
def Obligations.SkipsOnRegisters : Prop :=
  ∀ (x y : Reg) (s : State),
    decodeWord (0x5#4 ++ nibble x ++ nibble y ++ 0x0#4) = some (.seReg x y) ∧
    decodeWord (0x9#4 ++ nibble x ++ nibble y ++ 0x0#4) = some (.sneReg x y) ∧
    (∃ t, exec (.seReg x y) s = .next t ∧ (s.V[x] = s.V[y] → t.pc = s.pc + 4) ∧
      (s.V[x] ≠ s.V[y] → t.pc = s.pc + 2) ∧ ChangesOnly [.pc] s t) ∧
    (∃ t, exec (.sneReg x y) s = .next t ∧ (s.V[x] ≠ s.V[y] → t.pc = s.pc + 4) ∧
      (s.V[x] = s.V[y] → t.pc = s.pc + 2) ∧ ChangesOnly [.pc] s t)

/-! ## Registers and arithmetic (spec/42_alu.md) -/

/-- 6xkk and 7xkk (R142, R143): no flag; VF changes only as the destination. -/
def Obligations.LoadAndAddImmediate : Prop :=
  ∀ (x : Reg) (kk : Byte) (s : State),
    decodeWord (0x6#4 ++ nibble x ++ kk) = some (.ldImm x kk) ∧
    decodeWord (0x7#4 ++ nibble x ++ kk) = some (.addImm x kk) ∧
    (∃ t, exec (.ldImm x kk) s = .next t ∧ t.V[x] = kk ∧ RegistersKept [x] s t ∧ t.pc = s.pc + 2 ∧
      ChangesOnly [.V, .pc] s t) ∧
    (∃ t, exec (.addImm x kk) s = .next t ∧ t.V[x].toNat = (s.V[x].toNat + kk.toNat) % 256 ∧
      RegistersKept [x] s t ∧ t.pc = s.pc + 2 ∧ ChangesOnly [.V, .pc] s t)

/-- 8xy0, 8xy1, 8xy2 and 8xy3 (R144 to R148), bit by bit: VF is not written, unless it is the destination. -/
def Obligations.CopyAndLogic : Prop :=
  ∀ (x y : Reg) (s : State),
    decodeWord (0x8#4 ++ nibble x ++ nibble y ++ 0x0#4) = some (.ldReg x y) ∧
    decodeWord (0x8#4 ++ nibble x ++ nibble y ++ 0x1#4) = some (.orReg x y) ∧
    decodeWord (0x8#4 ++ nibble x ++ nibble y ++ 0x2#4) = some (.andReg x y) ∧
    decodeWord (0x8#4 ++ nibble x ++ nibble y ++ 0x3#4) = some (.xorReg x y) ∧
    (∃ t, exec (.ldReg x y) s = .next t ∧ t.V[x] = s.V[y] ∧ RegistersKept [x] s t ∧ t.pc = s.pc + 2 ∧
      ChangesOnly [.V, .pc] s t) ∧
    (∃ t, exec (.orReg x y) s = .next t ∧
      (∀ b, t.V[x].getLsbD b = (s.V[x].getLsbD b || s.V[y].getLsbD b)) ∧ RegistersKept [x] s t ∧
      t.pc = s.pc + 2 ∧ ChangesOnly [.V, .pc] s t) ∧
    (∃ t, exec (.andReg x y) s = .next t ∧
      (∀ b, t.V[x].getLsbD b = (s.V[x].getLsbD b && s.V[y].getLsbD b)) ∧ RegistersKept [x] s t ∧
      t.pc = s.pc + 2 ∧ ChangesOnly [.V, .pc] s t) ∧
    (∃ t, exec (.xorReg x y) s = .next t ∧
      (∀ b, t.V[x].getLsbD b = (s.V[x].getLsbD b ^^ s.V[y].getLsbD b)) ∧ RegistersKept [x] s t ∧
      t.pc = s.pc + 2 ∧ ChangesOnly [.V, .pc] s t)

/-- 8xy4 (R149): the sum modulo 256 in Vx; VF the carry, except that with x = F the sum stays there, by the spec's decision D16 (notes/assumptions/16.md). -/
def Obligations.AddSetsTheCarry : Prop :=
  ∀ (x y : Reg) (s : State),
    decodeWord (0x8#4 ++ nibble x ++ nibble y ++ 0x4#4) = some (.addReg x y) ∧
    ∃ t, exec (.addReg x y) s = .next t ∧ t.V[x].toNat = (s.V[x].toNat + s.V[y].toNat) % 256 ∧
      (x ≠ regF → t.V[regF] = if s.V[x].toNat + s.V[y].toNat > 255 then 1 else 0) ∧
      RegistersKept [x, regF] s t ∧ t.pc = s.pc + 2 ∧ ChangesOnly [.V, .pc] s t

/-- 8xy5 and 8xy7 (R151 to R153): the difference modulo 256; VF is 1 only where the minuend is strictly greater, except that with x = F the difference stays there, by the spec's decision D16 (notes/assumptions/16.md). -/
def Obligations.SubtractionsFlagStrictlyGreater : Prop :=
  ∀ (x y : Reg) (s : State),
    decodeWord (0x8#4 ++ nibble x ++ nibble y ++ 0x5#4) = some (.subReg x y) ∧
    decodeWord (0x8#4 ++ nibble x ++ nibble y ++ 0x7#4) = some (.subnReg x y) ∧
    (∃ t, exec (.subReg x y) s = .next t ∧ t.V[x].toNat = (s.V[x].toNat + 256 - s.V[y].toNat) % 256 ∧
      (x ≠ regF → t.V[regF] = if s.V[x].toNat > s.V[y].toNat then 1 else 0) ∧
      RegistersKept [x, regF] s t ∧ t.pc = s.pc + 2 ∧ ChangesOnly [.V, .pc] s t) ∧
    (∃ t, exec (.subnReg x y) s = .next t ∧ t.V[x].toNat = (s.V[y].toNat + 256 - s.V[x].toNat) % 256 ∧
      (x ≠ regF → t.V[regF] = if s.V[y].toNat > s.V[x].toNat then 1 else 0) ∧
      RegistersKept [x, regF] s t ∧ t.pc = s.pc + 2 ∧ ChangesOnly [.V, .pc] s t)

/-- 8xy6 and 8xyE (R154 to R156): Vx is shifted in place whatever y is; VF is the bit shifted out, except that with x = F the shifted value stays there, by the spec's decision D16 (notes/assumptions/16.md). -/
def Obligations.ShiftsMoveTheBitIntoVF : Prop :=
  ∀ (x y : Reg) (s : State),
    decodeWord (0x8#4 ++ nibble x ++ nibble y ++ 0x6#4) = some (.shr x y) ∧
    decodeWord (0x8#4 ++ nibble x ++ nibble y ++ 0xE#4) = some (.shl x y) ∧
    (∃ t, exec (.shr x y) s = .next t ∧ t.V[x].toNat = s.V[x].toNat / 2 ∧
      (x ≠ regF → t.V[regF].toNat = s.V[x].toNat % 2) ∧
      RegistersKept [x, regF] s t ∧ t.pc = s.pc + 2 ∧ ChangesOnly [.V, .pc] s t) ∧
    (∃ t, exec (.shl x y) s = .next t ∧ t.V[x].toNat = 2 * s.V[x].toNat % 256 ∧
      (x ≠ regF → t.V[regF].toNat = s.V[x].toNat / 128) ∧
      RegistersKept [x, regF] s t ∧ t.pc = s.pc + 2 ∧ ChangesOnly [.V, .pc] s t)

/-- Cxkk (R158, decision D20, notes/assumptions/3.md and 27.md), for every draw: the random byte given with the step, masked by kk. -/
def Obligations.RandomByteIsMasked : Prop :=
  ∀ (x : Reg) (kk : Byte) (s : State), decodeWord (0xC#4 ++ nibble x ++ kk) = some (.rnd x kk) ∧
    ∃ t, exec (.rnd x kk) s = .next t ∧
      (∀ b, t.V[x].getLsbD b = (s.turn.rnd.getLsbD b && kk.getLsbD b)) ∧ RegistersKept [x] s t ∧
      t.pc = s.pc + 2 ∧ ChangesOnly [.V, .pc] s t

/-! ## Address register and memory (spec/43_index_memory.md) -/

/-- Annn and Fx29 (R170, R174). That Fx29 does not mask a value above 15 is the spec's decision D23 (notes/assumptions/25.md). -/
def Obligations.AddressRegisterLoads : Prop :=
  ∀ (nnn : BitVec 12) (x : Reg) (s : State),
    decodeWord (0xA#4 ++ nnn) = some (.ldI nnn) ∧
    decodeWord (0xF#4 ++ nibble x ++ 0x29#8) = some (.ldF x) ∧
    (∃ t, exec (.ldI nnn) s = .next t ∧ t.I.toNat = nnn.toNat ∧ t.pc = s.pc + 2 ∧ ChangesOnly [.I, .pc] s t) ∧
    (∃ t, exec (.ldF x) s = .next t ∧ t.I.toNat = 0x050 + 5 * s.V[x].toNat ∧ t.pc = s.pc + 2 ∧
      ChangesOnly [.I, .pc] s t)

/-- Fx1E (R172, R173, decision D9): modulo 2^16, held above 0xFFF, VF not written (notes/assumptions/14.md). -/
def Obligations.AddToAddressRegister : Prop :=
  ∀ (x : Reg) (s : State), decodeWord (0xF#4 ++ nibble x ++ 0x1E#8) = some (.addI x) ∧
    ∃ t, exec (.addI x) s = .next t ∧ t.I.toNat = (s.I.toNat + s.V[x].toNat) % 65536 ∧ t.pc = s.pc + 2 ∧
      ChangesOnly [.I, .pc] s t

/-- Fx33 (R176): the three decimal digits at I, I + 1, I + 2 and no other byte; beyond 0xFFF MemoryOutOfBounds with nothing written (decisions D7, D14, D27; notes/assumptions/1.md, 20.md, 23.md). -/
def Obligations.DecimalDigitsAreStored : Prop :=
  ∀ (x : Reg) (s : State), decodeWord (0xF#4 ++ nibble x ++ 0x33#8) = some (.ldB x) ∧
    (s.I.toNat + 2 ≤ 0xFFF → ∃ t, exec (.ldB x) s = .next t ∧
      (Memory.read t.mem s.I.toNat).toNat = s.V[x].toNat / 100 ∧
      (Memory.read t.mem (s.I.toNat + 1)).toNat = s.V[x].toNat / 10 % 10 ∧
      (Memory.read t.mem (s.I.toNat + 2)).toNat = s.V[x].toNat % 10 ∧
      MemoryKeptOutside s.I.toNat 3 s t ∧ t.pc = s.pc + 2 ∧ ChangesOnly [.mem, .pc] s t) ∧
    (s.I.toNat + 2 > 0xFFF → ∃ t, exec (.ldB x) s = .next t ∧ InstructionFaults .memoryOutOfBounds s t)

/-- Fx55 (R178): V0 to Vx at I to I + x and no other byte, I unchanged; beyond 0xFFF MemoryOutOfBounds with nothing written (decisions D7, D14, D27; notes/assumptions/1.md, 20.md, 23.md). -/
def Obligations.RegistersAreStored : Prop :=
  ∀ (x : Reg) (s : State), decodeWord (0xF#4 ++ nibble x ++ 0x55#8) = some (.storeRegs x) ∧
    (s.I.toNat + x.val ≤ 0xFFF → ∃ t, exec (.storeRegs x) s = .next t ∧
      (∀ r : Reg, r ≤ x → Memory.read t.mem (s.I.toNat + r.val) = s.V[r]) ∧
      MemoryKeptOutside s.I.toNat (x.val + 1) s t ∧ t.pc = s.pc + 2 ∧ ChangesOnly [.mem, .pc] s t) ∧
    (s.I.toNat + x.val > 0xFFF → ∃ t, exec (.storeRegs x) s = .next t ∧ InstructionFaults .memoryOutOfBounds s t)

/-- Fx65 (R180): V0 to Vx from I to I + x, the other registers kept, I unchanged; beyond 0xFFF MemoryOutOfBounds with no register written (decisions D7, D14, D27; notes/assumptions/1.md, 20.md, 23.md). -/
def Obligations.RegistersAreLoaded : Prop :=
  ∀ (x : Reg) (s : State), decodeWord (0xF#4 ++ nibble x ++ 0x65#8) = some (.loadRegs x) ∧
    (s.I.toNat + x.val ≤ 0xFFF → ∃ t, exec (.loadRegs x) s = .next t ∧
      (∀ r : Reg, r ≤ x → t.V[r] = Memory.read s.mem (s.I.toNat + r.val)) ∧
      (∀ r : Reg, x < r → t.V[r] = s.V[r]) ∧ t.pc = s.pc + 2 ∧ ChangesOnly [.V, .pc] s t) ∧
    (s.I.toNat + x.val > 0xFFF → ∃ t, exec (.loadRegs x) s = .next t ∧ InstructionFaults .memoryOutOfBounds s t)

/-- Store then load: with the same I and the stored bytes left alone, V0 to Vx come back (R179, derived; decision D14, notes/assumptions/20.md). -/
def Obligations.StoreThenLoadRestoresTheRegisters : Prop :=
  ∀ (x : Reg) (s : State), s.I.toNat + x.val ≤ 0xFFF →
    ∃ t, exec (.storeRegs x) s = .next t ∧ t.I = s.I ∧
      ∀ t' : State, t'.I = t.I →
        (∀ j, j ≤ x.val → Memory.read t'.mem (t.I.toNat + j) = Memory.read t.mem (t.I.toNat + j)) →
        ∃ u, exec (.loadRegs x) t' = .next u ∧ ∀ r : Reg, r ≤ x → u.V[r] = s.V[r]

/-- A stored word is what the next step fetches: if Fx55 stores over the next instruction, that step's word is the stored pair of registers (20_memory.md R70, decision D22, notes/assumptions/25.md). -/
def Obligations.StoredCodeIsFetchedNext : Prop :=
  ∀ (x r r' : Reg) (s : State), s.I.toNat + x.val ≤ 0xFFF → r'.val = r.val + 1 → r' ≤ x →
    s.pc.toNat + 2 = s.I.toNat + r.val →
    ∃ t, exec (.storeRegs x) s = .next t ∧ t.opcode = s.V[r] ++ s.V[r']

/-! ## Keys and timers (spec/44_input_timers.md, spec/60_exceptions.md) -/

/-- Ex9E and ExA1 (R190, R191): the key the whole byte Vx names, tested in this step's snapshot; a value above 0xF faults with KeyOutOfRange (R192; decisions D7, D12 and D28, notes/assumptions/1.md, 19.md and 27.md). -/
def Obligations.SkipsOnKeys : Prop :=
  ∀ (x : Reg) (s : State),
    decodeWord (0xE#4 ++ nibble x ++ 0x9E#8) = some (.skp x) ∧
    decodeWord (0xE#4 ++ nibble x ++ 0xA1#8) = some (.sknp x) ∧
    (∀ k : Fin 16, s.V[x].toNat = k.val →
      (∃ t, exec (.skp x) s = .next t ∧ (s.turn.keys[k] = true → t.pc = s.pc + 4) ∧
        (s.turn.keys[k] = false → t.pc = s.pc + 2) ∧ ChangesOnly [.pc] s t) ∧
      (∃ t, exec (.sknp x) s = .next t ∧ (s.turn.keys[k] = false → t.pc = s.pc + 4) ∧
        (s.turn.keys[k] = true → t.pc = s.pc + 2) ∧ ChangesOnly [.pc] s t)) ∧
    (s.V[x].toNat > 0xF →
      (∃ t, exec (.skp x) s = .next t ∧ InstructionFaults .keyOutOfRange s t) ∧
      (∃ t, exec (.sknp x) s = .next t ∧ InstructionFaults .keyOutOfRange s t))

/-- Fx07, Fx15 and Fx18 (R193, R197, R198). -/
def Obligations.TimersAreReadAndSet : Prop :=
  ∀ (x : Reg) (s : State),
    decodeWord (0xF#4 ++ nibble x ++ 0x07#8) = some (.ldFromDT x) ∧
    decodeWord (0xF#4 ++ nibble x ++ 0x15#8) = some (.ldDT x) ∧
    decodeWord (0xF#4 ++ nibble x ++ 0x18#8) = some (.ldST x) ∧
    (∃ t, exec (.ldFromDT x) s = .next t ∧ t.V[x] = s.DT ∧ RegistersKept [x] s t ∧ t.pc = s.pc + 2 ∧
      ChangesOnly [.V, .pc] s t) ∧
    (∃ t, exec (.ldDT x) s = .next t ∧ t.DT = s.V[x] ∧ t.pc = s.pc + 2 ∧ ChangesOnly [.DT, .pc] s t) ∧
    (∃ t, exec (.ldST x) s = .next t ∧ t.ST = s.V[x] ∧ t.pc = s.pc + 2 ∧ ChangesOnly [.ST, .pc] s t)

/-- Fx0A (R194), for every choice of a key: with a key pressed, Vx is the number of a pressed key and pc advances; with none, only the mode changes, to AwaitingKey(x). R196 says that the source fixes neither which pressed key is reported, the spec's decision D13 (notes/assumptions/4.md), nor that a key held already ends the wait at once, D28 (27.md). -/
def Obligations.KeyWaitStarts : Prop :=
  ∀ (x : Reg) (s : State), decodeWord (0xF#4 ++ nibble x ++ 0x0A#8) = some (.ldKey x) ∧
    (SomeKeyPressed s → ∃ t k, exec (.ldKey x) s = .next t ∧ s.turn.keys[(k : Fin 16)] = true ∧
      t.V[x].toNat = k.val ∧ RegistersKept [x] s t ∧ t.pc = s.pc + 2 ∧ ChangesOnly [.V, .pc] s t) ∧
    (¬ SomeKeyPressed s → ∃ t, exec (.ldKey x) s = .next t ∧ t.mode = .awaitingKey x ∧
      ChangesOnly [.mode] s t)

/-- The function KeyWaitPoll, as the pseudocode of R195 gives it, for every choice of a key (decisions D13 and D28, notes/assumptions/4.md and 27.md): with a key pressed, Vx is its number, pc advances by 2 and the mode is Running; with none, no change. That AwaitingKey takes it as its step is `WaitingStepPolls`. -/
def Obligations.KeyWaitPollCompletesOnAKey : Prop :=
  ∀ (x : Reg) (s : State),
    (SomeKeyPressed s → ∃ k : Fin 16, s.turn.keys[k] = true ∧ (s.keyWaitPoll x).V[x].toNat = k.val ∧
      RegistersKept [x] s (s.keyWaitPoll x) ∧ (s.keyWaitPoll x).pc = s.pc + 2 ∧
      (s.keyWaitPoll x).mode = .running ∧ ChangesOnly [.V, .pc, .mode] s (s.keyWaitPoll x)) ∧
    (¬ SomeKeyPressed s → s.keyWaitPoll x = s)

/-- A step in AwaitingKey(x) fetches nothing: whatever memory and pc hold, it clears Changed and polls (R90, R195), and the host's TimerTicks follow (decision D1; notes/assumptions/2.md). -/
def Obligations.WaitingStepPolls : Prop :=
  ∀ (x : Reg) (s : State), s.mode = .awaitingKey x →
    step s = .next (((State.keyWaitPoll { s with changed := false } x).timerTicks s.turn.ticks).endTurn)

/-- `FX0A_PICK` gives a pressed key, can give every pressed key, and gives none only where none is pressed (R196, decision D13, notes/assumptions/4.md). -/
def Obligations.EveryPressedKeyCanBePicked : Prop :=
  ∀ (keys : Vector Bool 16) (k : Fin 16),
    ((∃ pick, pickKey keys pick = some k) ↔ keys[k] = true) ∧
    (∀ pick, pickKey keys pick = none ↔ ∀ j : Fin 16, keys[j] = false)

/-- However long no key is pressed the core waits, and the first snapshot with a pressed key ends the wait (R195; 70_reset_and_hazards.md R260; decisions D13 and D28, notes/assumptions/4.md and 27.md). -/
def Obligations.FirstPressedKeyEndsTheWait : Prop :=
  ∀ (x : Reg) (s : State) (quiet : List Turn) (turn : Turn) (rest : List Turn), s.mode = .awaitingKey x →
    s.turns = quiet ++ turn :: rest → (∀ q ∈ quiet, ∀ k : Fin 16, q.keys[k] = false) →
    (∃ k : Fin 16, turn.keys[k] = true) →
    (∃ w, Sys2Proof.core.run quiet.length s = .next w ∧ w.mode = .awaitingKey x ∧ w.pc = s.pc) ∧
    ∃ (u : State) (k : Fin 16), Sys2Proof.core.run (quiet.length + 1) s = .next u ∧ turn.keys[k] = true ∧
      u.V[x].toNat = k.val ∧ RegistersKept [x] s u ∧ u.mode = .running ∧ u.pc = s.pc + 2

/-- TimerTick (60_exceptions.md R225, decision D3, notes/assumptions/5.md), for both values of the open parameter: in Running each timer that is not 0 loses 1; in AwaitingKey it does so or stays, as the parameter says; in Halted it stays. Nothing else changes. -/
def Obligations.TimerTickCountsDown : Prop :=
  ∀ s : State, ChangesOnly [.DT, .ST] s s.timerTick ∧
    (s.mode = .running → s.timerTick.DT.toNat = s.DT.toNat - 1 ∧ s.timerTick.ST.toNat = s.ST.toNat - 1) ∧
    (∀ x, s.mode = .awaitingKey x →
      s.timerTick.DT.toNat = s.DT.toNat - (if Config.timersRunInKeyWait then 1 else 0) ∧
      s.timerTick.ST.toNat = s.ST.toNat - (if Config.timersRunInKeyWait then 1 else 0)) ∧
    (∀ d, s.mode = .halted d → s.timerTick = s)

/-- "The timers are independent. A tick decrements each one that is non-zero. Writing one timer does not affect the other." (60_exceptions.md R224; here in Running, as R225 leaves the other modes to the statement before; decision D3, notes/assumptions/5.md) -/
def Obligations.TimersAreIndependent : Prop :=
  ∀ (x : Reg) (s : State) (v : Byte),
    (State.timerTick { s with ST := v }).DT = s.timerTick.DT ∧
    (State.timerTick { s with DT := v }).ST = s.timerTick.ST ∧
    (s.mode = .running → s.DT ≠ 0 → s.timerTick.DT = s.DT - 1) ∧
    (s.mode = .running → s.ST ≠ 0 → s.timerTick.ST = s.ST - 1) ∧
    (∃ t, exec (.ldDT x) s = .next t ∧ t.ST = s.ST) ∧ (∃ t, exec (.ldST x) s = .next t ∧ t.DT = s.DT)

/-- The ticks of a turn are that many TimerTicks one after another, and they count down to 0 and no further (60_exceptions.md R225, R231; decision D2, notes/assumptions/2.md). -/
def Obligations.TicksOfATurnAreTimerTicks : Prop :=
  ∀ (n : Nat) (s : State), s.timerTicks n = State.timerTick^[n] s ∧
    (s.mode = .running →
      (s.timerTicks n).DT.toNat = s.DT.toNat - n ∧ (s.timerTicks n).ST.toNat = s.ST.toNat - n)

/-! ## Reset and boot (spec/70_reset_and_hazards.md, spec/10_state.md R37) -/

/-- The reset state, component by component (R37; the values other than pc are the spec's decision D4, notes/assumptions/8.md; memory is that of 6.md): memory reads as 0 outside the font region. -/
def Obligations.ResetStateHasTheListedValues : Prop :=
  State.reset.pc = 0x200 ∧ (∀ r : Reg, State.reset.V[r] = 0) ∧ State.reset.I = 0 ∧ State.reset.SP = 0 ∧
  (∀ j : Fin 16, State.reset.stack[j] = 0) ∧ State.reset.DT = 0 ∧ State.reset.ST = 0 ∧
  (∀ (px : Fin 64) (py : Fin 32), State.reset.FB[px][py] = false) ∧ State.reset.changed = false ∧
  State.reset.mode = .running ∧
  (∀ a, a < 0x050 ∨ 0x0A0 ≤ a → Memory.read State.reset.mem a = 0)

/-- `Reset()` from any state (R250, decision D4, notes/assumptions/8.md): R37's values, every memory byte 0x00, Running at 0x200. -/
def Obligations.ResetOperationClearsEverything : Prop :=
  ∀ s : State, (∀ a, Memory.read s.resetOperation.mem a = 0) ∧ Memory.wf s.resetOperation.mem = true ∧
    ChangesOnly [.mem, .inputs] State.reset s.resetOperation ∧ Unchanged s s.resetOperation .inputs

/-- `load_fontset()` (20_memory.md R55), for every value of FONT: the 80 bytes from 0x050 on, no other address, idempotent. -/
def Obligations.LoadFontWritesTheFontRegion : Prop :=
  ∀ (s : State) (font : Vector Byte 80),
    (∀ i : Fin 80, Memory.read (s.loadFont font).mem (0x050 + i.val) = font[i]) ∧
    MemoryKeptOutside 0x050 80 s (s.loadFont font) ∧ ChangesOnly [.mem] s (s.loadFont font) ∧
    ChangesOnly [] (s.loadFont font) ((s.loadFont font).loadFont font)

/-- `load_rom(bytes)` (20_memory.md R56, R57; decision D18, notes/assumptions/23.md): up to 3584 bytes verbatim from 0x200 on and no other address; a longer image writes nothing and the core is Halted(RomTooLarge) at 0x200. -/
def Obligations.LoadRomWritesAllOrNothing : Prop :=
  ∀ (s : State) (bytes : List Byte),
    (bytes.length ≤ 3584 →
      (∀ (i : Nat) (h : i < bytes.length), Memory.read (s.loadRom bytes).mem (0x200 + i) = bytes[i]) ∧
      MemoryKeptOutside 0x200 bytes.length s (s.loadRom bytes) ∧ ChangesOnly [.mem] s (s.loadRom bytes)) ∧
    (bytes.length > 3584 →
      (s.loadRom bytes).mode = .halted ⟨.romTooLarge, none, 0x200⟩ ∧ ChangesOnly [.mode] s (s.loadRom bytes))

/-- Boot from any state (R251; 20_memory.md R66; decisions D4 and D33, notes/assumptions/6.md, 8.md): with the default font and an empty program it ends in the reset state, as equal data; with any font and a program that fits, in a canonical memory that holds the two and zeros, at 0x200, Running. -/
def Obligations.BootFillsMemory : Prop :=
  ∀ (s : State) (font : Vector Byte 80) (bytes : List Byte),
    s.boot fontParameter [] = State.reset.withInputs s.turns s.turnCount ∧
    (bytes.length ≤ 3584 →
      (∀ (i : Nat) (h : i < bytes.length), Memory.read (s.boot font bytes).mem (0x200 + i) = bytes[i]) ∧
      (∀ i : Fin 80, Memory.read (s.boot font bytes).mem (0x050 + i.val) = font[i]) ∧
      (∀ a, a < 0x050 ∨ (0x0A0 ≤ a ∧ a < 0x200) ∨ 0x200 + bytes.length ≤ a →
        Memory.read (s.boot font bytes).mem a = 0) ∧
      (s.boot font bytes).pc = 0x200 ∧ (s.boot font bytes).mode = .running ∧
      Memory.wf (s.boot font bytes).mem = true)
end

