-- ==== Sys2Proof/Laws/Decode.lean ====
section
/-! SUPPORT. The fields of an encoded word, and the fixed bits of each format (spec/30_encoding.md R81, R82). -/

namespace Sys2Proof

@[simp] theorem fieldNNN_packNNN (op : BitVec 4) (nnn : BitVec 12) : fieldNNN (packNNN op nnn) = nnn := by
  apply BitVec.eq_of_getLsbD_eq
  intro i hi
  simp only [packNNN, fieldNNN, BitVec.getLsbD_extractLsb', BitVec.getLsbD_append]
  simp [hi]

theorem toFin_of_nibble {w : BitVec 4} {x : Fin 16} (h : w = nibble x) : w.toFin = x := by
  rw [h]; rfl

@[simp] theorem fieldX_packXKK (op : BitVec 4) (x : Reg) (kk : Byte) : fieldX (packXKK op x kk) = x := by
  apply toFin_of_nibble
  apply BitVec.eq_of_getLsbD_eq
  intro i hi
  have h8 : ¬ 8 + i < 8 := by omega
  simp only [packXKK, BitVec.getLsbD_extractLsb', BitVec.getLsbD_append]
  simp [hi, h8]

@[simp] theorem fieldKK_packXKK (op : BitVec 4) (x : Reg) (kk : Byte) : fieldKK (packXKK op x kk) = kk := by
  apply BitVec.eq_of_getLsbD_eq
  intro i hi
  simp only [packXKK, fieldKK, BitVec.getLsbD_extractLsb', BitVec.getLsbD_append]
  simp [hi]

@[simp] theorem fieldX_packXYN (op : BitVec 4) (x y : Reg) (n : BitVec 4) :
    fieldX (packXYN op x y n) = x := by
  apply toFin_of_nibble
  apply BitVec.eq_of_getLsbD_eq
  intro i hi
  simp only [packXYN, BitVec.getLsbD_extractLsb', BitVec.getLsbD_append]
  interval_cases i <;> simp

@[simp] theorem fieldY_packXYN (op : BitVec 4) (x y : Reg) (n : BitVec 4) :
    fieldY (packXYN op x y n) = y := by
  apply toFin_of_nibble
  apply BitVec.eq_of_getLsbD_eq
  intro i hi
  simp only [packXYN, BitVec.getLsbD_extractLsb', BitVec.getLsbD_append]
  interval_cases i <;> simp

@[simp] theorem fieldN_packXYN (op : BitVec 4) (x y : Reg) (n : Fin 16) :
    fieldN (packXYN op x y (nibble n)) = n := by
  apply toFin_of_nibble
  apply BitVec.eq_of_getLsbD_eq
  intro i hi
  simp only [packXYN, BitVec.getLsbD_extractLsb', BitVec.getLsbD_append]
  interval_cases i <;> simp

@[simp] theorem fieldX_packXFF (op : BitVec 4) (x : Reg) (f : Byte) : fieldX (packXFF op x f) = x :=
  fieldX_packXKK op x f

/-! ## The bits a row fixes -/

@[simp] theorem packNNN_and_mask (op : BitVec 4) (nnn : BitVec 12) : packNNN op nnn &&& 0xF000#16 = op ++ 0#12 := by
  apply BitVec.eq_of_getLsbD_eq
  intro i hi
  simp only [packNNN, BitVec.getLsbD_and, BitVec.getLsbD_append]
  interval_cases i <;> simp

@[simp] theorem packXKK_and_mask (op : BitVec 4) (x : Reg) (kk : Byte) :
    packXKK op x kk &&& 0xF000#16 = op ++ 0#12 := by
  apply BitVec.eq_of_getLsbD_eq
  intro i hi
  simp only [packXKK, BitVec.getLsbD_and, BitVec.getLsbD_append]
  interval_cases i <;> simp

@[simp] theorem packXYN_and_opMask (op : BitVec 4) (x y : Reg) (n : BitVec 4) :
    packXYN op x y n &&& 0xF000#16 = op ++ 0#12 := by
  apply BitVec.eq_of_getLsbD_eq
  intro i hi
  simp only [packXYN, BitVec.getLsbD_and, BitVec.getLsbD_append]
  interval_cases i <;> simp

@[simp] theorem packXYN_and_mask (op : BitVec 4) (x y : Reg) (n : BitVec 4) :
    packXYN op x y n &&& 0xF00F#16 = op ++ 0#8 ++ n := by
  apply BitVec.eq_of_getLsbD_eq
  intro i hi
  simp only [packXYN, BitVec.getLsbD_and, BitVec.getLsbD_append]
  interval_cases i <;> simp

@[simp] theorem packXFF_and_mask (op : BitVec 4) (x : Reg) (f : Byte) :
    packXFF op x f &&& 0xF0FF#16 = op ++ 0#4 ++ f := by
  apply BitVec.eq_of_getLsbD_eq
  intro i hi
  simp only [packXFF, BitVec.getLsbD_and, BitVec.getLsbD_append]
  interval_cases i <;> simp

/-- A word that decodes has a row whose fixed bits it has and which builds the instruction. -/
theorem decodeWord_row {w : Word} {i : Instr} (h : decodeWord w = some i) :
    ∃ r ∈ opcodeMap, r.fits w = true ∧ r.build w = i := by
  obtain ⟨r, hr, hb⟩ := Option.map_eq_some_iff.mp h
  have hf := List.find?_some hr
  exact ⟨r, List.mem_of_find?_eq_some hr, hf, hb⟩

/-- A word of no row does not decode. -/
theorem decodeWord_eq_none {w : Word} : decodeWord w = none ↔ ∀ r ∈ opcodeMap, r.fits w = false := by
  simp [decodeWord]

end Sys2Proof
end

