-- ==== Sys2Proof/Laws/Memory.lean ====
section
/-! SUPPORT. What memory reads give after writes, and that every write keeps the canonical form (spec/20_memory.md R58, R64). -/

namespace Sys2Proof.Machine

@[simp] theorem Memory.read_nil (a : Nat) : Memory.read [] a = Memory.unlisted a := rfl

theorem Memory.read_cons (b : Nat) (v : Byte) (m : Memory) (a : Nat) :
    Memory.read ((b, v) :: m) a = if a = b then v else Memory.read m a := rfl

theorem Memory.read_erase_same (m : Memory) (a : Nat) :
    Memory.read (Memory.erase m a) a = Memory.unlisted a := by
  induction m with
  | nil => rfl
  | cons c m ih =>
    obtain ⟨b, v⟩ := c
    by_cases h : b = a
    · simpa [Memory.erase, h] using ih
    · have h' : ¬ a = b := fun e => h e.symm
      simpa [Memory.erase, h, h', Memory.read_cons] using ih

theorem Memory.read_erase_other (m : Memory) {a c : Nat} (h : c ≠ a) :
    Memory.read (Memory.erase m a) c = Memory.read m c := by
  induction m with
  | nil => rfl
  | cons d m ih =>
    obtain ⟨b, v⟩ := d
    by_cases hb : b = a
    · subst hb
      simpa [Memory.erase, Memory.read_cons, h] using ih
    · have : Memory.erase ((b, v) :: m) a = (b, v) :: Memory.erase m a := by simp [Memory.erase, hb]
      rw [this, Memory.read_cons, Memory.read_cons, ih]

theorem Memory.read_place_other (m : Memory) {a c : Nat} (v : Byte) (h : c ≠ a) :
    Memory.read (Memory.place a v m) c = Memory.read m c := by
  induction m with
  | nil => simp [Memory.place, Memory.read_cons, h]
  | cons d m ih =>
    obtain ⟨b, u⟩ := d
    simp only [Memory.place]
    split
    · simp [Memory.read_cons, h]
    · simp [Memory.read_cons, ih]

/-- Placing a byte for an address that is not listed makes it the byte read there. -/
theorem Memory.read_place_same (m : Memory) {a : Nat} (v : Byte) (h : ∀ c ∈ m, c.1 ≠ a) :
    Memory.read (Memory.place a v m) a = v := by
  induction m with
  | nil => simp [Memory.place, Memory.read_cons]
  | cons d m ih =>
    obtain ⟨b, u⟩ := d
    have hb : ¬ a = b := fun e => h (b, u) (by simp) e.symm
    simp only [Memory.place]
    split
    · simp [Memory.read_cons]
    · rw [Memory.read_cons, if_neg hb]
      exact ih fun c hc => h c (by simp [hc])

theorem Memory.erase_ne (m : Memory) (a : Nat) : ∀ c ∈ Memory.erase m a, c.1 ≠ a := by
  intro c hc
  simpa using (List.mem_filter.mp hc).2

/-- A read returns the byte last written (spec/20_memory.md R64). -/
@[simp] theorem Memory.read_write_same (m : Memory) (a : Nat) (v : Byte) :
    Memory.read (Memory.write m a v) a = v := by
  unfold Memory.write
  split
  · rename_i h; rw [Memory.read_erase_same, h]
  · exact Memory.read_place_same _ _ (Memory.erase_ne m a)

/-- A write leaves every other address alone. -/
theorem Memory.read_write_other (m : Memory) {a c : Nat} (v : Byte) (h : c ≠ a) :
    Memory.read (Memory.write m a v) c = Memory.read m c := by
  unfold Memory.write
  split
  · exact Memory.read_erase_other m h
  · rw [Memory.read_place_other _ _ h, Memory.read_erase_other m h]

/-- What a read gives after a sequence of bytes is written. -/
theorem Memory.read_writeBytes (bytes : List Byte) (m : Memory) (a c : Nat) :
    Memory.read (Memory.writeBytes m a bytes) c =
      if h : a ≤ c ∧ c - a < bytes.length then bytes[c - a]'h.2 else Memory.read m c := by
  induction bytes generalizing m a with
  | nil => simp [Memory.writeBytes]
  | cons v vs ih =>
    rw [Memory.writeBytes, ih]
    by_cases h1 : a + 1 ≤ c ∧ c - (a + 1) < vs.length
    · have h2 : a ≤ c ∧ c - a < (v :: vs).length := by simp only [List.length_cons]; omega
      rw [dif_pos h1, dif_pos h2]
      have e : c - a = (c - (a + 1)) + 1 := by omega
      simp only [e, List.getElem_cons_succ]
    · rw [dif_neg h1]
      by_cases hc : c = a
      · subst hc; simp
      · have h2 : ¬ (a ≤ c ∧ c - a < (v :: vs).length) := by simp only [List.length_cons]; omega
        rw [dif_neg h2, Memory.read_write_other _ _ hc]

theorem Memory.read_writeBytes_inside (bytes : List Byte) (m : Memory) (a i : Nat) (h : i < bytes.length) :
    Memory.read (Memory.writeBytes m a bytes) (a + i) = bytes[i] := by
  rw [Memory.read_writeBytes, dif_pos (by omega)]
  simp

theorem Memory.read_writeBytes_outside (bytes : List Byte) (m : Memory) {a c : Nat}
    (h : c < a ∨ a + bytes.length ≤ c) :
    Memory.read (Memory.writeBytes m a bytes) c = Memory.read m c := by
  rw [Memory.read_writeBytes, dif_neg (by omega)]

@[simp] theorem Memory.readBytes_length (m : Memory) (a n : Nat) : (Memory.readBytes m a n).length = n := by
  induction n generalizing a with
  | zero => rfl
  | succ n ih => simp [Memory.readBytes, ih]

theorem Memory.readBytes_getElem (m : Memory) (a n i : Nat) (h : i < (Memory.readBytes m a n).length) :
    (Memory.readBytes m a n)[i] = Memory.read m (a + i) := by
  induction n generalizing a i with
  | zero => simp at h
  | succ n ih =>
    cases i with
    | zero => rfl
    | succ i =>
      simp only [Memory.readBytes, List.getElem_cons_succ]
      rw [ih]
      congr 1
      omega

/-! ## The canonical form -/

theorem Memory.wf_cons (a : Nat) (v : Byte) (m : Memory) :
    Memory.wf ((a, v) :: m) = true ↔
      a < 4096 ∧ v ≠ Memory.unlisted a ∧ (∀ c ∈ m, a < c.1) ∧ Memory.wf m = true := by
  simp [Memory.wf, and_assoc]

theorem Memory.wf_erase (m : Memory) (a : Nat) (h : Memory.wf m = true) :
    Memory.wf (Memory.erase m a) = true := by
  induction m with
  | nil => rfl
  | cons d m ih =>
    obtain ⟨b, v⟩ := d
    obtain ⟨h1, h2, h3, h4⟩ := (Memory.wf_cons b v m).mp h
    by_cases hb : b = a
    · simpa [Memory.erase, hb] using ih h4
    · have : Memory.erase ((b, v) :: m) a = (b, v) :: Memory.erase m a := by simp [Memory.erase, hb]
      rw [this, Memory.wf_cons]
      exact ⟨h1, h2, fun c hc => h3 c (List.mem_of_mem_filter hc), ih h4⟩

theorem Memory.mem_place (m : Memory) (a : Nat) (v : Byte) (c : Host.Cell) :
    c ∈ Memory.place a v m ↔ c = (a, v) ∨ c ∈ m := by
  induction m with
  | nil => simp [Memory.place]
  | cons d m ih =>
    obtain ⟨b, u⟩ := d
    simp only [Memory.place]
    split
    · simp
    · simp only [List.mem_cons, ih]; tauto

theorem Memory.wf_place (m : Memory) {a : Nat} {v : Byte} (h : Memory.wf m = true)
    (ha : a < 4096) (hv : v ≠ Memory.unlisted a) (hn : ∀ c ∈ m, c.1 ≠ a) :
    Memory.wf (Memory.place a v m) = true := by
  induction m with
  | nil => simp [Memory.place, ha, hv, Memory.wf]
  | cons d m ih =>
    obtain ⟨b, u⟩ := d
    obtain ⟨h1, h2, h3, h4⟩ := (Memory.wf_cons b u m).mp h
    have hb : b ≠ a := hn (b, u) (by simp)
    simp only [Memory.place]
    split
    · rename_i hlt
      refine (Memory.wf_cons a v _).mpr ⟨ha, hv, ?_, h⟩
      intro c hc
      rcases List.mem_cons.mp hc with rfl | hc
      · exact hlt
      · exact lt_trans hlt (h3 c hc)
    · rename_i hlt
      refine (Memory.wf_cons b u _).mpr ⟨h1, h2, ?_, ih h4 fun c hc => hn c (by simp [hc])⟩
      intro c hc
      rcases (Memory.mem_place m a v c).mp hc with rfl | hc
      · exact lt_of_le_of_ne (not_lt.mp hlt) hb
      · exact h3 c hc

/-- A write to an address that exists keeps the canonical form. -/
theorem Memory.wf_write (m : Memory) {a : Nat} (v : Byte) (h : Memory.wf m = true)
    (ha : a < 4096) : Memory.wf (Memory.write m a v) = true := by
  unfold Memory.write
  split
  · exact Memory.wf_erase m a h
  · rename_i hv
    exact Memory.wf_place _ (Memory.wf_erase m a h) ha hv (Memory.erase_ne m a)

/-- Writing bytes to addresses that exist keeps the canonical form. -/
theorem Memory.wf_writeBytes (bytes : List Byte) (m : Memory) {a : Nat} (h : Memory.wf m = true)
    (ha : a + bytes.length ≤ 4096) : Memory.wf (Memory.writeBytes m a bytes) = true := by
  induction bytes generalizing m a with
  | nil => exact h
  | cons v vs ih =>
    simp only [List.length_cons] at ha
    exact ih _ (Memory.wf_write m v h (by omega)) (by omega)

/-- The reset memory, which lists nothing, has the canonical form. -/
@[simp] theorem Memory.wf_nil : Memory.wf [] = true := rfl

theorem Memory.read_below (m : Memory) {a : Nat} (h : ∀ c ∈ m, a < c.1) :
    Memory.read m a = Memory.unlisted a := by
  induction m with
  | nil => rfl
  | cons d m ih =>
    obtain ⟨b, v⟩ := d
    have hb : a < b := h (b, v) (by simp)
    rw [Memory.read_cons, if_neg (by omega)]
    exact ih fun c hc => h c (by simp [hc])

/-- Equal memories are equal data: two canonical memories that read alike everywhere are the same list. -/
theorem Memory.ext_of_wf (m m' : Memory) (h : Memory.wf m = true) (h' : Memory.wf m' = true)
    (e : ∀ a, Memory.read m a = Memory.read m' a) : m = m' := by
  induction m generalizing m' with
  | nil =>
    cases m' with
    | nil => rfl
    | cons d m' =>
      obtain ⟨b, v⟩ := d
      obtain ⟨-, h2, -, -⟩ := (Memory.wf_cons b v m').mp h'
      have := e b
      simp [Memory.read_cons] at this
      exact absurd this.symm h2
  | cons c m ih =>
    obtain ⟨a, u⟩ := c
    obtain ⟨-, hu, ha, hm⟩ := (Memory.wf_cons a u m).mp h
    cases m' with
    | nil =>
      have := e a
      simp [Memory.read_cons] at this
      exact absurd this hu
    | cons d m' =>
      obtain ⟨b, v⟩ := d
      obtain ⟨-, hv, hb, hm'⟩ := (Memory.wf_cons b v m').mp h'
      have hab : a = b := by
        rcases lt_trichotomy a b with hlt | heq | hgt
        · have h1 := e a
          rw [Memory.read_below ((b, v) :: m') (by
            intro c hc
            rcases List.mem_cons.mp hc with rfl | hc
            · exact hlt
            · exact lt_trans hlt (hb c hc))] at h1
          simp [Memory.read_cons] at h1
          exact absurd h1 hu
        · exact heq
        · have h1 := e b
          rw [Memory.read_below ((a, u) :: m) (by
            intro c hc
            rcases List.mem_cons.mp hc with rfl | hc
            · exact hgt
            · exact lt_trans hgt (ha c hc))] at h1
          simp [Memory.read_cons] at h1
          exact absurd h1.symm hv
      subst hab
      have huv : u = v := by simpa [Memory.read_cons] using e a
      subst huv
      rw [ih m' hm hm' ?_]
      intro c
      by_cases hc : c = a
      · subst hc; rw [Memory.read_below m ha, Memory.read_below m' hb]
      · simpa [Memory.read_cons, hc] using e c

end Sys2Proof.Machine
end

