-- ==== Sys2Proof/Laws/State.lean ====
section
/-! SUPPORT. One lemma per field per shared update of the state, each true by unfolding the update once. -/

namespace Sys2Proof.Machine

@[simp] theorem State.setReg_V (s : State) (x : Reg) (v : Byte) : (s.setReg x v).V = s.V.set x v := rfl
@[simp] theorem State.setReg_I (s : State) (x : Reg) (v : Byte) : (s.setReg x v).I = s.I := rfl
@[simp] theorem State.setReg_pc (s : State) (x : Reg) (v : Byte) : (s.setReg x v).pc = s.pc := rfl
@[simp] theorem State.setReg_SP (s : State) (x : Reg) (v : Byte) : (s.setReg x v).SP = s.SP := rfl
@[simp] theorem State.setReg_stack (s : State) (x : Reg) (v : Byte) : (s.setReg x v).stack = s.stack := rfl
@[simp] theorem State.setReg_DT (s : State) (x : Reg) (v : Byte) : (s.setReg x v).DT = s.DT := rfl
@[simp] theorem State.setReg_ST (s : State) (x : Reg) (v : Byte) : (s.setReg x v).ST = s.ST := rfl
@[simp] theorem State.setReg_FB (s : State) (x : Reg) (v : Byte) : (s.setReg x v).FB = s.FB := rfl
@[simp] theorem State.setReg_changed (s : State) (x : Reg) (v : Byte) : (s.setReg x v).changed = s.changed := rfl
@[simp] theorem State.setReg_mode (s : State) (x : Reg) (v : Byte) : (s.setReg x v).mode = s.mode := rfl
@[simp] theorem State.setReg_mem (s : State) (x : Reg) (v : Byte) : (s.setReg x v).mem = s.mem := rfl
@[simp] theorem State.setReg_turns (s : State) (x : Reg) (v : Byte) : (s.setReg x v).turns = s.turns := rfl
@[simp] theorem State.setReg_turnCount (s : State) (x : Reg) (v : Byte) : (s.setReg x v).turnCount = s.turnCount := rfl

@[simp] theorem State.setFlag_V (s : State) (v : Byte) : (s.setFlag v).V = s.V.set regF v := rfl
@[simp] theorem State.setFlag_I (s : State) (v : Byte) : (s.setFlag v).I = s.I := rfl
@[simp] theorem State.setFlag_pc (s : State) (v : Byte) : (s.setFlag v).pc = s.pc := rfl
@[simp] theorem State.setFlag_SP (s : State) (v : Byte) : (s.setFlag v).SP = s.SP := rfl
@[simp] theorem State.setFlag_stack (s : State) (v : Byte) : (s.setFlag v).stack = s.stack := rfl
@[simp] theorem State.setFlag_DT (s : State) (v : Byte) : (s.setFlag v).DT = s.DT := rfl
@[simp] theorem State.setFlag_ST (s : State) (v : Byte) : (s.setFlag v).ST = s.ST := rfl
@[simp] theorem State.setFlag_FB (s : State) (v : Byte) : (s.setFlag v).FB = s.FB := rfl
@[simp] theorem State.setFlag_changed (s : State) (v : Byte) : (s.setFlag v).changed = s.changed := rfl
@[simp] theorem State.setFlag_mode (s : State) (v : Byte) : (s.setFlag v).mode = s.mode := rfl
@[simp] theorem State.setFlag_mem (s : State) (v : Byte) : (s.setFlag v).mem = s.mem := rfl
@[simp] theorem State.setFlag_turns (s : State) (v : Byte) : (s.setFlag v).turns = s.turns := rfl
@[simp] theorem State.setFlag_turnCount (s : State) (v : Byte) : (s.setFlag v).turnCount = s.turnCount := rfl

@[simp] theorem State.setFlagAndReg_V (s : State) (x : Reg) (f v : Byte) : (s.setFlagAndReg x f v).V = (s.V.set regF f).set x v := rfl
@[simp] theorem State.setFlagAndReg_I (s : State) (x : Reg) (f v : Byte) : (s.setFlagAndReg x f v).I = s.I := rfl
@[simp] theorem State.setFlagAndReg_pc (s : State) (x : Reg) (f v : Byte) : (s.setFlagAndReg x f v).pc = s.pc := rfl
@[simp] theorem State.setFlagAndReg_SP (s : State) (x : Reg) (f v : Byte) : (s.setFlagAndReg x f v).SP = s.SP := rfl
@[simp] theorem State.setFlagAndReg_stack (s : State) (x : Reg) (f v : Byte) : (s.setFlagAndReg x f v).stack = s.stack := rfl
@[simp] theorem State.setFlagAndReg_DT (s : State) (x : Reg) (f v : Byte) : (s.setFlagAndReg x f v).DT = s.DT := rfl
@[simp] theorem State.setFlagAndReg_ST (s : State) (x : Reg) (f v : Byte) : (s.setFlagAndReg x f v).ST = s.ST := rfl
@[simp] theorem State.setFlagAndReg_FB (s : State) (x : Reg) (f v : Byte) : (s.setFlagAndReg x f v).FB = s.FB := rfl
@[simp] theorem State.setFlagAndReg_changed (s : State) (x : Reg) (f v : Byte) : (s.setFlagAndReg x f v).changed = s.changed := rfl
@[simp] theorem State.setFlagAndReg_mode (s : State) (x : Reg) (f v : Byte) : (s.setFlagAndReg x f v).mode = s.mode := rfl
@[simp] theorem State.setFlagAndReg_mem (s : State) (x : Reg) (f v : Byte) : (s.setFlagAndReg x f v).mem = s.mem := rfl
@[simp] theorem State.setFlagAndReg_turns (s : State) (x : Reg) (f v : Byte) : (s.setFlagAndReg x f v).turns = s.turns := rfl
@[simp] theorem State.setFlagAndReg_turnCount (s : State) (x : Reg) (f v : Byte) : (s.setFlagAndReg x f v).turnCount = s.turnCount := rfl

@[simp] theorem State.halt_V (s : State) (c : FaultCause) (o : Option Word) : (s.halt c o).V = s.V := rfl
@[simp] theorem State.halt_I (s : State) (c : FaultCause) (o : Option Word) : (s.halt c o).I = s.I := rfl
@[simp] theorem State.halt_pc (s : State) (c : FaultCause) (o : Option Word) : (s.halt c o).pc = s.pc := rfl
@[simp] theorem State.halt_SP (s : State) (c : FaultCause) (o : Option Word) : (s.halt c o).SP = s.SP := rfl
@[simp] theorem State.halt_stack (s : State) (c : FaultCause) (o : Option Word) : (s.halt c o).stack = s.stack := rfl
@[simp] theorem State.halt_DT (s : State) (c : FaultCause) (o : Option Word) : (s.halt c o).DT = s.DT := rfl
@[simp] theorem State.halt_ST (s : State) (c : FaultCause) (o : Option Word) : (s.halt c o).ST = s.ST := rfl
@[simp] theorem State.halt_FB (s : State) (c : FaultCause) (o : Option Word) : (s.halt c o).FB = s.FB := rfl
@[simp] theorem State.halt_changed (s : State) (c : FaultCause) (o : Option Word) : (s.halt c o).changed = false := rfl
@[simp] theorem State.halt_mode (s : State) (c : FaultCause) (o : Option Word) : (s.halt c o).mode = .halted ⟨c, o, s.pc⟩ := rfl
@[simp] theorem State.halt_mem (s : State) (c : FaultCause) (o : Option Word) : (s.halt c o).mem = s.mem := rfl
@[simp] theorem State.halt_turns (s : State) (c : FaultCause) (o : Option Word) : (s.halt c o).turns = s.turns := rfl
@[simp] theorem State.halt_turnCount (s : State) (c : FaultCause) (o : Option Word) : (s.halt c o).turnCount = s.turnCount := rfl

@[simp] theorem State.endTurn_V (s : State) : (s.endTurn).V = s.V := rfl
@[simp] theorem State.endTurn_I (s : State) : (s.endTurn).I = s.I := rfl
@[simp] theorem State.endTurn_pc (s : State) : (s.endTurn).pc = s.pc := rfl
@[simp] theorem State.endTurn_SP (s : State) : (s.endTurn).SP = s.SP := rfl
@[simp] theorem State.endTurn_stack (s : State) : (s.endTurn).stack = s.stack := rfl
@[simp] theorem State.endTurn_DT (s : State) : (s.endTurn).DT = s.DT := rfl
@[simp] theorem State.endTurn_ST (s : State) : (s.endTurn).ST = s.ST := rfl
@[simp] theorem State.endTurn_FB (s : State) : (s.endTurn).FB = s.FB := rfl
@[simp] theorem State.endTurn_changed (s : State) : (s.endTurn).changed = s.changed := rfl
@[simp] theorem State.endTurn_mode (s : State) : (s.endTurn).mode = s.mode := rfl
@[simp] theorem State.endTurn_mem (s : State) : (s.endTurn).mem = s.mem := rfl
@[simp] theorem State.endTurn_turns (s : State) : (s.endTurn).turns = s.turns.tail := rfl
@[simp] theorem State.endTurn_turnCount (s : State) : (s.endTurn).turnCount = s.turnCount + 1 := rfl

@[simp] theorem State.timerTicks_V (s : State) (n : Nat) : (s.timerTicks n).V = s.V := rfl
@[simp] theorem State.timerTicks_I (s : State) (n : Nat) : (s.timerTicks n).I = s.I := rfl
@[simp] theorem State.timerTicks_pc (s : State) (n : Nat) : (s.timerTicks n).pc = s.pc := rfl
@[simp] theorem State.timerTicks_SP (s : State) (n : Nat) : (s.timerTicks n).SP = s.SP := rfl
@[simp] theorem State.timerTicks_stack (s : State) (n : Nat) : (s.timerTicks n).stack = s.stack := rfl
@[simp] theorem State.timerTicks_DT (s : State) (n : Nat) : (s.timerTicks n).DT = if s.timersRun then countdownBy n s.DT else s.DT := rfl
@[simp] theorem State.timerTicks_ST (s : State) (n : Nat) : (s.timerTicks n).ST = if s.timersRun then countdownBy n s.ST else s.ST := rfl
@[simp] theorem State.timerTicks_FB (s : State) (n : Nat) : (s.timerTicks n).FB = s.FB := rfl
@[simp] theorem State.timerTicks_changed (s : State) (n : Nat) : (s.timerTicks n).changed = s.changed := rfl
@[simp] theorem State.timerTicks_mode (s : State) (n : Nat) : (s.timerTicks n).mode = s.mode := rfl
@[simp] theorem State.timerTicks_mem (s : State) (n : Nat) : (s.timerTicks n).mem = s.mem := rfl
@[simp] theorem State.timerTicks_turns (s : State) (n : Nat) : (s.timerTicks n).turns = s.turns := rfl
@[simp] theorem State.timerTicks_turnCount (s : State) (n : Nat) : (s.timerTicks n).turnCount = s.turnCount := rfl

@[simp] theorem State.timerTick_V (s : State) : (s.timerTick).V = s.V := rfl
@[simp] theorem State.timerTick_I (s : State) : (s.timerTick).I = s.I := rfl
@[simp] theorem State.timerTick_pc (s : State) : (s.timerTick).pc = s.pc := rfl
@[simp] theorem State.timerTick_SP (s : State) : (s.timerTick).SP = s.SP := rfl
@[simp] theorem State.timerTick_stack (s : State) : (s.timerTick).stack = s.stack := rfl
@[simp] theorem State.timerTick_DT (s : State) : (s.timerTick).DT = if s.timersRun then countdown s.DT else s.DT := rfl
@[simp] theorem State.timerTick_ST (s : State) : (s.timerTick).ST = if s.timersRun then countdown s.ST else s.ST := rfl
@[simp] theorem State.timerTick_FB (s : State) : (s.timerTick).FB = s.FB := rfl
@[simp] theorem State.timerTick_changed (s : State) : (s.timerTick).changed = s.changed := rfl
@[simp] theorem State.timerTick_mode (s : State) : (s.timerTick).mode = s.mode := rfl
@[simp] theorem State.timerTick_mem (s : State) : (s.timerTick).mem = s.mem := rfl
@[simp] theorem State.timerTick_turns (s : State) : (s.timerTick).turns = s.turns := rfl
@[simp] theorem State.timerTick_turnCount (s : State) : (s.timerTick).turnCount = s.turnCount := rfl

@[simp] theorem State.clearChanged_V (s : State) : s.clearChanged.V = s.V := rfl
@[simp] theorem State.clearChanged_I (s : State) : s.clearChanged.I = s.I := rfl
@[simp] theorem State.clearChanged_pc (s : State) : s.clearChanged.pc = s.pc := rfl
@[simp] theorem State.clearChanged_SP (s : State) : s.clearChanged.SP = s.SP := rfl
@[simp] theorem State.clearChanged_stack (s : State) : s.clearChanged.stack = s.stack := rfl
@[simp] theorem State.clearChanged_DT (s : State) : s.clearChanged.DT = s.DT := rfl
@[simp] theorem State.clearChanged_ST (s : State) : s.clearChanged.ST = s.ST := rfl
@[simp] theorem State.clearChanged_FB (s : State) : s.clearChanged.FB = s.FB := rfl
@[simp] theorem State.clearChanged_changed (s : State) : s.clearChanged.changed = false := rfl
@[simp] theorem State.clearChanged_mode (s : State) : s.clearChanged.mode = s.mode := rfl
@[simp] theorem State.clearChanged_mem (s : State) : s.clearChanged.mem = s.mem := rfl
@[simp] theorem State.clearChanged_turns (s : State) : s.clearChanged.turns = s.turns := rfl
@[simp] theorem State.clearChanged_turnCount (s : State) : s.clearChanged.turnCount = s.turnCount := rfl
@[simp] theorem State.clearChanged_opcode (s : State) : s.clearChanged.opcode = s.opcode := rfl
@[simp] theorem State.clearChanged_turn (s : State) : s.clearChanged.turn = s.turn := rfl

@[simp] theorem State.applyEffect_V (s : State) (e : PcEffect) : (s.applyEffect e).V = s.V := by cases e <;> rfl
@[simp] theorem State.applyEffect_I (s : State) (e : PcEffect) : (s.applyEffect e).I = s.I := by cases e <;> rfl
@[simp] theorem State.applyEffect_SP (s : State) (e : PcEffect) : (s.applyEffect e).SP = s.SP := by cases e <;> rfl
@[simp] theorem State.applyEffect_stack (s : State) (e : PcEffect) : (s.applyEffect e).stack = s.stack := by cases e <;> rfl
@[simp] theorem State.applyEffect_DT (s : State) (e : PcEffect) : (s.applyEffect e).DT = s.DT := by cases e <;> rfl
@[simp] theorem State.applyEffect_ST (s : State) (e : PcEffect) : (s.applyEffect e).ST = s.ST := by cases e <;> rfl
@[simp] theorem State.applyEffect_FB (s : State) (e : PcEffect) : (s.applyEffect e).FB = s.FB := by cases e <;> rfl
@[simp] theorem State.applyEffect_changed (s : State) (e : PcEffect) : (s.applyEffect e).changed = s.changed := by cases e <;> rfl
@[simp] theorem State.applyEffect_mem (s : State) (e : PcEffect) : (s.applyEffect e).mem = s.mem := by cases e <;> rfl
@[simp] theorem State.applyEffect_turns (s : State) (e : PcEffect) : (s.applyEffect e).turns = s.turns := by cases e <;> rfl
@[simp] theorem State.applyEffect_turnCount (s : State) (e : PcEffect) : (s.applyEffect e).turnCount = s.turnCount := by cases e <;> rfl

@[simp] theorem State.applyEffect_next_pc (s : State) : (s.applyEffect .next).pc = s.pc + 2 := rfl
@[simp] theorem State.applyEffect_next_mode (s : State) : (s.applyEffect .next).mode = s.mode := rfl
@[simp] theorem State.applyEffect_skip_pc (s : State) : (s.applyEffect .skip).pc = s.pc + 4 := rfl
@[simp] theorem State.applyEffect_skip_mode (s : State) : (s.applyEffect .skip).mode = s.mode := rfl
@[simp] theorem State.applyEffect_jump_pc (s : State) (w : Word) : (s.applyEffect (.jump w)).pc = w := rfl
@[simp] theorem State.applyEffect_jump_mode (s : State) (w : Word) : (s.applyEffect (.jump w)).mode = s.mode := rfl
@[simp] theorem State.applyEffect_wait_pc (s : State) (x : Reg) : (s.applyEffect (.wait x)).pc = s.pc := rfl
@[simp] theorem State.applyEffect_wait_mode (s : State) (x : Reg) : (s.applyEffect (.wait x)).mode = .awaitingKey x := rfl

end Sys2Proof.Machine
end

