-- ==== Sys2Proof/Laws/Ops.lean ====
section
/-! SUPPORT. One lemma for each shared operation, saying once what it does, and the inversion of the step. -/

namespace Sys2Proof.Machine

/-! ## Registers -/

@[simp] theorem State.reg_setReg_same (s : State) (x : Reg) (v : Byte) : (s.setReg x v).reg x = v := by
  simp [State.reg]

theorem State.reg_setReg_other (s : State) {x r : Reg} (v : Byte) (h : r ≠ x) :
    (s.setReg x v).reg r = s.reg r := by
  have h' : (x : Nat) ≠ r := fun e => h (Fin.ext e.symm)
  simp [State.reg, Vector.getElem_set_ne _ _ h']

/-- Register `r` after a register write. -/
theorem getElem_set_reg (V : Vector Byte 16) (x r : Reg) (v : Byte) :
    (V.set x v)[r] = if r = x then v else V[r] := by
  by_cases h : r = x
  · subst h; simp
  · have h' : (x : Nat) ≠ r := fun e => h (Fin.ext e.symm)
    simp [h, Vector.getElem_set_ne _ _ h']

/-! ## The outcomes of an instruction -/

/-- All that completing an instruction can answer. -/
@[simp] theorem complete_eq_next (s t : State) (e : PcEffect) :
    complete s e = .next t ↔ t = s.applyEffect e := by
  simp [complete, eq_comm]

/-- All that raising a fault can answer. -/
@[simp] theorem raise_eq_next (s t : State) (c : FaultCause) :
    raise s c = .next t ↔ t = s.halt c (some s.opcode) := by
  simp [raise, eq_comm]

/-! ## Operand checks -/

theorem rangeFits_iff (base : Word) (count : Nat) :
    rangeFits base count = true ↔ count = 0 ∨ base.toNat + count ≤ 4096 := by
  simp only [rangeFits, decide_eq_true_eq]
  omega

theorem fetchFits_iff (pc : Word) : fetchFits pc = true ↔ pc.toNat ≤ 0xFFE := by
  simp only [fetchFits, decide_eq_true_eq]
  omega

theorem keyOf_eq_some (v : Byte) (k : Fin 16) : keyOf v = some k ↔ k.val = v.toNat := by
  unfold keyOf
  split
  · simp [Fin.ext_iff, eq_comm]
  · simp; omega

theorem keyOf_eq_none (v : Byte) : keyOf v = none ↔ v.toNat > 0xF := by
  unfold keyOf
  split <;> simp <;> omega

theorem mem_pressedKeys (keys : Vector Bool 16) (k : Fin 16) :
    k ∈ pressedKeys keys ↔ keys[k] = true := by
  simp [pressedKeys, List.mem_finRange]

/-- The key picked is a pressed key (spec/44_input_timers.md R194). -/
theorem pickKey_pressed {keys : Vector Bool 16} {p : Nat} {k : Fin 16} (h : pickKey keys p = some k) :
    keys[k] = true :=
  (mem_pressedKeys keys k).mp (List.mem_of_getElem? h)

/-- No key is picked exactly where no key is pressed. -/
theorem pickKey_eq_none (keys : Vector Bool 16) (p : Nat) :
    pickKey keys p = none ↔ pressedKeys keys = [] := by
  unfold pickKey
  rw [List.getElem?_eq_none_iff]
  constructor
  · intro h
    by_contra hne
    exact absurd h (not_le.mpr (Nat.mod_lt _ (List.length_pos_of_ne_nil hne)))
  · intro h; simp [h]

/-! ## Loops -/

/-- What the register loop of Fx65 leaves in each register. -/
theorem loadInto_getElem (m : Memory) (base n : Nat) (V : Vector Byte 16) (r : Reg) :
    (loadInto m base n V)[r] = if r.val < n then Memory.read m (base + r.val) else V[r] := by
  induction n with
  | zero => simp [loadInto]
  | succ n ih =>
    simp only [Fin.getElem_fin] at ih ⊢
    rw [loadInto, Vector.getElem_setIfInBounds]
    by_cases h : n = r.val
    · simp [h]
    · rw [if_neg h, ih]
      have : r.val < n ↔ r.val < n + 1 := by omega
      simp only [this]

@[simp] theorem decimalDigits_length (a : Byte) : (decimalDigits a).length = 3 := rfl

@[simp] theorem bytesOfWord_length (w : Word) : (bytesOfWord w).length = 2 := rfl

@[simp] theorem storedRegisters_length (V : Vector Byte 16) (x : Reg) :
    (V.toList.take (x.val + 1)).length = x.val + 1 := by
  simp

/-- Counting down stops at zero. -/
theorem countdown_toNat (v : Byte) : (countdown v).toNat = v.toNat - 1 := by
  unfold countdown
  split
  · rename_i h; simp [h]
  · rename_i h
    have : v.toNat ≠ 0 := fun e => h (BitVec.eq_of_toNat_eq (by simpa using e))
    rw [BitVec.toNat_sub_of_le (by simp [BitVec.le_def]; omega)]
    simp

/-! ## The framebuffer -/

/-- A pixel after `xor_pixel` (spec/40_display.md R111). -/
theorem xorPixel_getElem (fb : Framebuffer) (px qx : Fin 64) (py qy : Fin 32) :
    (xorPixel fb px py).1[qx][qy] = if qx = px ∧ qy = py then !fb[px][py] else fb[qx][qy] := by
  by_cases hx : qx = px <;> by_cases hy : qy = py
  · subst hx hy; simp [xorPixel]
  · have hy' : ¬ py.val = qy.val := fun e => hy (Fin.ext e.symm)
    subst hx; simp [xorPixel, hy, hy']
  · have hx' : ¬ px.val = qx.val := fun e => hx (Fin.ext e.symm)
    simp [xorPixel, hx, hx']
  · have hx' : ¬ px.val = qx.val := fun e => hx (Fin.ext e.symm)
    simp [xorPixel, hx, hx']

@[simp] theorem xorPixel_collision (fb : Framebuffer) (px : Fin 64) (py : Fin 32) :
    (xorPixel fb px py).2 = fb[px][py] := rfl

@[simp] theorem blankFramebuffer_getElem (px : Fin 64) (py : Fin 32) : blankFramebuffer[px][py] = false := by
  simp [blankFramebuffer]

/-! ## The step -/

/-- All that a cycle can do when it answers a next state (spec/30_encoding.md R91). -/
theorem cycle_cases {s u : State} (h : cycle s = .next u) :
    (¬ fetchFits s.pc = true ∧ u = s.halt .fetchOutOfBounds none) ∨
    (fetchFits s.pc = true ∧ decodeWord s.opcode = none ∧ u = s.halt .unknownOpcode (some s.opcode)) ∨
    (fetchFits s.pc = true ∧ ∃ i, decodeWord s.opcode = some i ∧ exec i s = .next u) := by
  unfold cycle at h
  by_cases hf : fetchFits s.pc = true
  · rw [if_pos hf] at h
    cases hd : decodeWord s.opcode with
    | none =>
      rw [hd] at h
      exact .inr (.inl ⟨hf, rfl, by simpa using h⟩)
    | some i =>
      rw [hd] at h
      exact .inr (.inr ⟨hf, i, rfl, h⟩)
  · rw [if_neg hf] at h
    exact .inl ⟨hf, by simpa [eq_comm] using h⟩

/-- All that a step can do when it answers a next state (spec/30_encoding.md R90). -/
theorem step_cases {s t : State} (h : step s = .next t) :
    (∃ d, s.mode = .halted d ∧ t = s) ∨
    (∃ x, s.mode = .awaitingKey x ∧ t = closeTurn s (s.clearChanged.keyWaitPoll x)) ∨
    (s.mode = .running ∧ ∃ u, cycle s.clearChanged = .next u ∧ t = closeTurn s u) := by
  unfold step runTurn at h
  cases hm : s.mode with
  | halted d =>
    rw [hm] at h
    exact .inl ⟨d, rfl, by simpa [eq_comm] using h⟩
  | awaitingKey x =>
    rw [hm] at h
    simp only [stepOperation, hm] at h
    exact .inr (.inl ⟨x, rfl, by simpa [eq_comm] using h⟩)
  | running =>
    rw [hm] at h
    simp only [stepOperation, hm] at h
    cases hc : cycle s.clearChanged with
    | next u =>
      rw [hc] at h
      exact .inr (.inr ⟨rfl, u, rfl, by simpa [eq_comm] using h⟩)
    | fault f => cases f
    | refused r => simp [hc] at h

end Sys2Proof.Machine
end

