-- ==== Sys2Proof/Laws/PerInstr.lean ====
section
/-! SUPPORT. What holds of every instruction as syntax, one lemma per constructor. -/

namespace Sys2Proof.Laws.EncodedForm

/-- The instruction is well formed, and a row of the opcode map has its word and builds it back (spec/30_encoding.md R85, R86). -/
def Statement (i : Instr) : Prop :=
  i.wellFormed = true ∧ ∃ r ∈ opcodeMap, r.fits (encode i) = true ∧ r.build (encode i) = i

theorem cls : Statement (.cls) := by
  refine ⟨by simp [Instr.wellFormed]; try omega, opcodeMap[0], by simp [opcodeMap, rowsFlow, rowsRegister, rowsAddress, rowsFunction], ?_, ?_⟩ <;>
    simp [opcodeMap, rowsFlow, rowsRegister, rowsAddress, rowsFunction, OpcodeRow.fits, encode]
theorem ret : Statement (.ret) := by
  refine ⟨by simp [Instr.wellFormed]; try omega, opcodeMap[1], by simp [opcodeMap, rowsFlow, rowsRegister, rowsAddress, rowsFunction], ?_, ?_⟩ <;>
    simp [opcodeMap, rowsFlow, rowsRegister, rowsAddress, rowsFunction, OpcodeRow.fits, encode]
theorem jp (nnn : BitVec 12) : Statement (.jp nnn) := by
  refine ⟨by simp [Instr.wellFormed]; try omega, opcodeMap[2], by simp [opcodeMap, rowsFlow, rowsRegister, rowsAddress, rowsFunction], ?_, ?_⟩ <;>
    simp [opcodeMap, rowsFlow, rowsRegister, rowsAddress, rowsFunction, OpcodeRow.fits, encode]
theorem call (nnn : BitVec 12) : Statement (.call nnn) := by
  refine ⟨by simp [Instr.wellFormed]; try omega, opcodeMap[3], by simp [opcodeMap, rowsFlow, rowsRegister, rowsAddress, rowsFunction], ?_, ?_⟩ <;>
    simp [opcodeMap, rowsFlow, rowsRegister, rowsAddress, rowsFunction, OpcodeRow.fits, encode]
theorem seImm (x : Reg) (kk : Byte) : Statement (.seImm x kk) := by
  refine ⟨by simp [Instr.wellFormed]; try omega, opcodeMap[4], by simp [opcodeMap, rowsFlow, rowsRegister, rowsAddress, rowsFunction], ?_, ?_⟩ <;>
    simp [opcodeMap, rowsFlow, rowsRegister, rowsAddress, rowsFunction, OpcodeRow.fits, encode]
theorem sneImm (x : Reg) (kk : Byte) : Statement (.sneImm x kk) := by
  refine ⟨by simp [Instr.wellFormed]; try omega, opcodeMap[5], by simp [opcodeMap, rowsFlow, rowsRegister, rowsAddress, rowsFunction], ?_, ?_⟩ <;>
    simp [opcodeMap, rowsFlow, rowsRegister, rowsAddress, rowsFunction, OpcodeRow.fits, encode]
theorem seReg (x y : Reg) : Statement (.seReg x y) := by
  refine ⟨by simp [Instr.wellFormed]; try omega, opcodeMap[6], by simp [opcodeMap, rowsFlow, rowsRegister, rowsAddress, rowsFunction], ?_, ?_⟩ <;>
    simp [opcodeMap, rowsFlow, rowsRegister, rowsAddress, rowsFunction, OpcodeRow.fits, encode]
theorem ldImm (x : Reg) (kk : Byte) : Statement (.ldImm x kk) := by
  refine ⟨by simp [Instr.wellFormed]; try omega, opcodeMap[7], by simp [opcodeMap, rowsFlow, rowsRegister, rowsAddress, rowsFunction], ?_, ?_⟩ <;>
    simp [opcodeMap, rowsFlow, rowsRegister, rowsAddress, rowsFunction, OpcodeRow.fits, encode]
theorem addImm (x : Reg) (kk : Byte) : Statement (.addImm x kk) := by
  refine ⟨by simp [Instr.wellFormed]; try omega, opcodeMap[8], by simp [opcodeMap, rowsFlow, rowsRegister, rowsAddress, rowsFunction], ?_, ?_⟩ <;>
    simp [opcodeMap, rowsFlow, rowsRegister, rowsAddress, rowsFunction, OpcodeRow.fits, encode]
theorem ldReg (x y : Reg) : Statement (.ldReg x y) := by
  refine ⟨by simp [Instr.wellFormed]; try omega, opcodeMap[9], by simp [opcodeMap, rowsFlow, rowsRegister, rowsAddress, rowsFunction], ?_, ?_⟩ <;>
    simp [opcodeMap, rowsFlow, rowsRegister, rowsAddress, rowsFunction, OpcodeRow.fits, encode]
theorem orReg (x y : Reg) : Statement (.orReg x y) := by
  refine ⟨by simp [Instr.wellFormed]; try omega, opcodeMap[10], by simp [opcodeMap, rowsFlow, rowsRegister, rowsAddress, rowsFunction], ?_, ?_⟩ <;>
    simp [opcodeMap, rowsFlow, rowsRegister, rowsAddress, rowsFunction, OpcodeRow.fits, encode]
theorem andReg (x y : Reg) : Statement (.andReg x y) := by
  refine ⟨by simp [Instr.wellFormed]; try omega, opcodeMap[11], by simp [opcodeMap, rowsFlow, rowsRegister, rowsAddress, rowsFunction], ?_, ?_⟩ <;>
    simp [opcodeMap, rowsFlow, rowsRegister, rowsAddress, rowsFunction, OpcodeRow.fits, encode]
theorem xorReg (x y : Reg) : Statement (.xorReg x y) := by
  refine ⟨by simp [Instr.wellFormed]; try omega, opcodeMap[12], by simp [opcodeMap, rowsFlow, rowsRegister, rowsAddress, rowsFunction], ?_, ?_⟩ <;>
    simp [opcodeMap, rowsFlow, rowsRegister, rowsAddress, rowsFunction, OpcodeRow.fits, encode]
theorem addReg (x y : Reg) : Statement (.addReg x y) := by
  refine ⟨by simp [Instr.wellFormed]; try omega, opcodeMap[13], by simp [opcodeMap, rowsFlow, rowsRegister, rowsAddress, rowsFunction], ?_, ?_⟩ <;>
    simp [opcodeMap, rowsFlow, rowsRegister, rowsAddress, rowsFunction, OpcodeRow.fits, encode]
theorem subReg (x y : Reg) : Statement (.subReg x y) := by
  refine ⟨by simp [Instr.wellFormed]; try omega, opcodeMap[14], by simp [opcodeMap, rowsFlow, rowsRegister, rowsAddress, rowsFunction], ?_, ?_⟩ <;>
    simp [opcodeMap, rowsFlow, rowsRegister, rowsAddress, rowsFunction, OpcodeRow.fits, encode]
theorem shr (x y : Reg) : Statement (.shr x y) := by
  refine ⟨by simp [Instr.wellFormed]; try omega, opcodeMap[15], by simp [opcodeMap, rowsFlow, rowsRegister, rowsAddress, rowsFunction], ?_, ?_⟩ <;>
    simp [opcodeMap, rowsFlow, rowsRegister, rowsAddress, rowsFunction, OpcodeRow.fits, encode]
theorem subnReg (x y : Reg) : Statement (.subnReg x y) := by
  refine ⟨by simp [Instr.wellFormed]; try omega, opcodeMap[16], by simp [opcodeMap, rowsFlow, rowsRegister, rowsAddress, rowsFunction], ?_, ?_⟩ <;>
    simp [opcodeMap, rowsFlow, rowsRegister, rowsAddress, rowsFunction, OpcodeRow.fits, encode]
theorem shl (x y : Reg) : Statement (.shl x y) := by
  refine ⟨by simp [Instr.wellFormed]; try omega, opcodeMap[17], by simp [opcodeMap, rowsFlow, rowsRegister, rowsAddress, rowsFunction], ?_, ?_⟩ <;>
    simp [opcodeMap, rowsFlow, rowsRegister, rowsAddress, rowsFunction, OpcodeRow.fits, encode]
theorem sneReg (x y : Reg) : Statement (.sneReg x y) := by
  refine ⟨by simp [Instr.wellFormed]; try omega, opcodeMap[18], by simp [opcodeMap, rowsFlow, rowsRegister, rowsAddress, rowsFunction], ?_, ?_⟩ <;>
    simp [opcodeMap, rowsFlow, rowsRegister, rowsAddress, rowsFunction, OpcodeRow.fits, encode]
theorem ldI (nnn : BitVec 12) : Statement (.ldI nnn) := by
  refine ⟨by simp [Instr.wellFormed]; try omega, opcodeMap[19], by simp [opcodeMap, rowsFlow, rowsRegister, rowsAddress, rowsFunction], ?_, ?_⟩ <;>
    simp [opcodeMap, rowsFlow, rowsRegister, rowsAddress, rowsFunction, OpcodeRow.fits, encode]
theorem jpV0 (nnn : BitVec 12) : Statement (.jpV0 nnn) := by
  refine ⟨by simp [Instr.wellFormed]; try omega, opcodeMap[20], by simp [opcodeMap, rowsFlow, rowsRegister, rowsAddress, rowsFunction], ?_, ?_⟩ <;>
    simp [opcodeMap, rowsFlow, rowsRegister, rowsAddress, rowsFunction, OpcodeRow.fits, encode]
theorem rnd (x : Reg) (kk : Byte) : Statement (.rnd x kk) := by
  refine ⟨by simp [Instr.wellFormed]; try omega, opcodeMap[21], by simp [opcodeMap, rowsFlow, rowsRegister, rowsAddress, rowsFunction], ?_, ?_⟩ <;>
    simp [opcodeMap, rowsFlow, rowsRegister, rowsAddress, rowsFunction, OpcodeRow.fits, encode]
theorem drw (x y : Reg) (n : Fin 16) : Statement (.drw x y n) := by
  refine ⟨by simp [Instr.wellFormed]; try omega, opcodeMap[22], by simp [opcodeMap, rowsFlow, rowsRegister, rowsAddress, rowsFunction], ?_, ?_⟩ <;>
    simp [opcodeMap, rowsFlow, rowsRegister, rowsAddress, rowsFunction, OpcodeRow.fits, encode]
theorem skp (x : Reg) : Statement (.skp x) := by
  refine ⟨by simp [Instr.wellFormed]; try omega, opcodeMap[23], by simp [opcodeMap, rowsFlow, rowsRegister, rowsAddress, rowsFunction], ?_, ?_⟩ <;>
    simp [opcodeMap, rowsFlow, rowsRegister, rowsAddress, rowsFunction, OpcodeRow.fits, encode]
theorem sknp (x : Reg) : Statement (.sknp x) := by
  refine ⟨by simp [Instr.wellFormed]; try omega, opcodeMap[24], by simp [opcodeMap, rowsFlow, rowsRegister, rowsAddress, rowsFunction], ?_, ?_⟩ <;>
    simp [opcodeMap, rowsFlow, rowsRegister, rowsAddress, rowsFunction, OpcodeRow.fits, encode]
theorem ldFromDT (x : Reg) : Statement (.ldFromDT x) := by
  refine ⟨by simp [Instr.wellFormed]; try omega, opcodeMap[25], by simp [opcodeMap, rowsFlow, rowsRegister, rowsAddress, rowsFunction], ?_, ?_⟩ <;>
    simp [opcodeMap, rowsFlow, rowsRegister, rowsAddress, rowsFunction, OpcodeRow.fits, encode]
theorem ldKey (x : Reg) : Statement (.ldKey x) := by
  refine ⟨by simp [Instr.wellFormed]; try omega, opcodeMap[26], by simp [opcodeMap, rowsFlow, rowsRegister, rowsAddress, rowsFunction], ?_, ?_⟩ <;>
    simp [opcodeMap, rowsFlow, rowsRegister, rowsAddress, rowsFunction, OpcodeRow.fits, encode]
theorem ldDT (x : Reg) : Statement (.ldDT x) := by
  refine ⟨by simp [Instr.wellFormed]; try omega, opcodeMap[27], by simp [opcodeMap, rowsFlow, rowsRegister, rowsAddress, rowsFunction], ?_, ?_⟩ <;>
    simp [opcodeMap, rowsFlow, rowsRegister, rowsAddress, rowsFunction, OpcodeRow.fits, encode]
theorem ldST (x : Reg) : Statement (.ldST x) := by
  refine ⟨by simp [Instr.wellFormed]; try omega, opcodeMap[28], by simp [opcodeMap, rowsFlow, rowsRegister, rowsAddress, rowsFunction], ?_, ?_⟩ <;>
    simp [opcodeMap, rowsFlow, rowsRegister, rowsAddress, rowsFunction, OpcodeRow.fits, encode]
theorem addI (x : Reg) : Statement (.addI x) := by
  refine ⟨by simp [Instr.wellFormed]; try omega, opcodeMap[29], by simp [opcodeMap, rowsFlow, rowsRegister, rowsAddress, rowsFunction], ?_, ?_⟩ <;>
    simp [opcodeMap, rowsFlow, rowsRegister, rowsAddress, rowsFunction, OpcodeRow.fits, encode]
theorem ldF (x : Reg) : Statement (.ldF x) := by
  refine ⟨by simp [Instr.wellFormed]; try omega, opcodeMap[30], by simp [opcodeMap, rowsFlow, rowsRegister, rowsAddress, rowsFunction], ?_, ?_⟩ <;>
    simp [opcodeMap, rowsFlow, rowsRegister, rowsAddress, rowsFunction, OpcodeRow.fits, encode]
theorem ldB (x : Reg) : Statement (.ldB x) := by
  refine ⟨by simp [Instr.wellFormed]; try omega, opcodeMap[31], by simp [opcodeMap, rowsFlow, rowsRegister, rowsAddress, rowsFunction], ?_, ?_⟩ <;>
    simp [opcodeMap, rowsFlow, rowsRegister, rowsAddress, rowsFunction, OpcodeRow.fits, encode]
theorem storeRegs (x : Reg) : Statement (.storeRegs x) := by
  refine ⟨by simp [Instr.wellFormed]; try omega, opcodeMap[32], by simp [opcodeMap, rowsFlow, rowsRegister, rowsAddress, rowsFunction], ?_, ?_⟩ <;>
    simp [opcodeMap, rowsFlow, rowsRegister, rowsAddress, rowsFunction, OpcodeRow.fits, encode]
theorem loadRegs (x : Reg) : Statement (.loadRegs x) := by
  refine ⟨by simp [Instr.wellFormed]; try omega, opcodeMap[33], by simp [opcodeMap, rowsFlow, rowsRegister, rowsAddress, rowsFunction], ?_, ?_⟩ <;>
    simp [opcodeMap, rowsFlow, rowsRegister, rowsAddress, rowsFunction, OpcodeRow.fits, encode]

end Sys2Proof.Laws.EncodedForm
end

