-- ==== Sys2Proof/Laws/Run.lean ====
section
/-! SUPPORT. Runs of the machine, one step at a time, and the packaging of an induction over a run. -/

namespace Sys2Proof.Machine

@[simp] theorem run_zero (s : State) : Sys2Proof.core.run 0 s = .next s := rfl

/-- A run goes on from the state its first step answers. -/
theorem run_succ {s t : State} (h : step s = .next t) (k : Nat) :
    Sys2Proof.core.run (k + 1) s = Sys2Proof.core.run k t := by
  have h' : Sys2Proof.core.step s = .next t := h
  simp only [Host.Core.run, h']

/-- A run that answers a next state began with a step that answers one. -/
theorem run_succ_cases {s u : State} {k : Nat} (h : Sys2Proof.core.run (k + 1) s = .next u) :
    ∃ t, step s = .next t ∧ Sys2Proof.core.run k t = .next u := by
  cases hs : step s with
  | next t => exact ⟨t, rfl, by rwa [run_succ hs k] at h⟩
  | fault f => cases f
  | refused r =>
    have h' : Sys2Proof.core.step s = .refused r := hs
    simp [Host.Core.run, h'] at h

/-- What holds of a state and is kept by every step holds of every state a run from it reaches. -/
theorem run_keeps {P : State → Prop} (hstep : ∀ s t, P s → step s = .next t → P t) {s u : State} (h : P s)
    (k : Nat) (hr : Sys2Proof.core.run k s = .next u) : P u := by
  induction k generalizing s with
  | zero =>
    have e : s = u := Host.Outcome.next.inj hr
    exact e ▸ h
  | succ k ih =>
    obtain ⟨t, ht, hu⟩ := run_succ_cases hr
    exact ih (hstep s t h ht) hu

end Sys2Proof.Machine
end

