-- ==== Sys2Proof/Tests/Slice0.lean ====
section
/-! SUPPORT. The model's own tests. The expected results are the spec's: the encodings of spec/30_encoding.md R85 and the vectors of spec/95_test_vectors.md, named by their ids. The last part shows, for every statement with hypotheses, a state and operands that meet them. -/

namespace Sys2Proof.Tests

open Sys2Proof.Machine

/-! ## Checks on what enters from outside -/

theorem test_asAssembled_refuses_shr_with_y : Instr.asAssembled (.shr 1 2) = false := by decide
theorem test_asAssembled_refuses_shl_with_y : Instr.asAssembled (.shl 1 0xF) = false := by decide
theorem test_asAssembled_accepts : Instr.asAssembled (.shr 1 0) = true := by decide
theorem test_romFits_refuses_3585_bytes : romFits (List.replicate 3585 0) = false := by
  rw [romFits, List.length_replicate]; decide
theorem test_romFits_accepts_3584_bytes : romFits (List.replicate 3584 0) = true := by
  rw [romFits, List.length_replicate]; decide
/-- `Instr.wellFormed` has no ill-formed term to refuse (R86); the largest operands pass. -/
theorem test_wellFormed_accepts_largest_operands :
    Instr.wellFormed (.drw 0xF 0xF 0xF) = true ∧ Instr.wellFormed (.jp 0xFFF) = true ∧
      Instr.wellFormed (.rnd 0xF 0xFF) = true := by decide
/-- TD1 to TD12: words of no row. -/
theorem test_decode_refuses_unknown_words :
    [0x0000, 0x0123, 0x00E1, 0x00EF, 0x5121, 0x8128, 0x812F, 0x9121, 0xE09F, 0xE0FF, 0xF000, 0xF0FF].map decodeWord
      = List.replicate 12 none := by decide
theorem test_decode_refuses_by_name :
    decode [0x81, 0x28] = .error (.unknownOpcode 0x8128) ∧ decode [0x60] = .error .truncated := by
  exact ⟨rfl, rfl⟩

/-! ## Decoding: one word per constructor, written from R85 -/

theorem test_decode_display : decodeWord 0x00E0 = some .cls ∧ decodeWord 0xD125 = some (.drw 1 2 5) := by decide
theorem test_decode_flow :
    decodeWord 0x00EE = some .ret ∧ decodeWord 0x1ABC = some (.jp 0xABC) ∧ decodeWord 0x2300 = some (.call 0x300) ∧
    decodeWord 0xB123 = some (.jpV0 0x123) ∧ decodeWord 0x3A10 = some (.seImm 0xA 0x10) ∧
    decodeWord 0x4B11 = some (.sneImm 0xB 0x11) ∧ decodeWord 0x5120 = some (.seReg 1 2) ∧
    decodeWord 0x9340 = some (.sneReg 3 4) := by decide
theorem test_decode_register :
    decodeWord 0x6A03 = some (.ldImm 0xA 3) ∧ decodeWord 0x71FF = some (.addImm 1 0xFF) ∧
    decodeWord 0x8120 = some (.ldReg 1 2) ∧ decodeWord 0x8341 = some (.orReg 3 4) ∧
    decodeWord 0x8562 = some (.andReg 5 6) ∧ decodeWord 0x8783 = some (.xorReg 7 8) ∧
    decodeWord 0x89A4 = some (.addReg 9 0xA) ∧ decodeWord 0x8BC5 = some (.subReg 0xB 0xC) ∧
    decodeWord 0x8DE6 = some (.shr 0xD 0xE) ∧ decodeWord 0x8F07 = some (.subnReg 0xF 0) ∧
    decodeWord 0x810E = some (.shl 1 0) ∧ decodeWord 0xC10F = some (.rnd 1 0x0F) := by decide
theorem test_decode_index_memory :
    decodeWord 0xA300 = some (.ldI 0x300) ∧ decodeWord 0xF21E = some (.addI 2) ∧ decodeWord 0xF029 = some (.ldF 0) ∧
    decodeWord 0xF133 = some (.ldB 1) ∧ decodeWord 0xF355 = some (.storeRegs 3) ∧
    decodeWord 0xFF65 = some (.loadRegs 0xF) := by decide
theorem test_decode_keys_timers :
    decodeWord 0xE09E = some (.skp 0) ∧ decodeWord 0xE7A1 = some (.sknp 7) ∧ decodeWord 0xFB07 = some (.ldFromDT 0xB) ∧
    decodeWord 0xF00A = some (.ldKey 0) ∧ decodeWord 0xFA15 = some (.ldDT 0xA) ∧ decodeWord 0xF118 = some (.ldST 1) := by
  decide
theorem test_encode :
    encode (.drw 1 2 5) = 0xD125 ∧ encode (.shr 1 2) = 0x8126 ∧ encode (.jpV0 0xFFF) = 0xBFFF ∧
    encode (.loadRegs 0xF) = 0xFF65 ∧ encode (.sneImm 3 0x11) = 0x4311 := by decide
theorem test_decodeTableWord : decodeTableWord 16 0x8F24 = some (.addReg 0xF 2) ∧ decodeTableWord 16 0x0123 = none := by
  decide

/-! ## One step on a small state -/

/-- No key pressed, random byte 0, no TimerTick. -/
def quiet : Turn := ⟨Vector.replicate 16 false, 0, 0, 0⟩

/-- One key pressed. -/
def press (k : Fin 16) : Turn := { quiet with keys := quiet.keys.set k true }

/-- The reset state with one quiet turn to come. -/
def start : State := { State.reset with turns := [quiet] }

/-- The state after one step that runs the word `w` at pc. -/
def after (w : Nat) (s : State) : State :=
  match step (s.withFetchWord 16 w) with
  | .next t => t
  | .fault _ | .refused _ => s

/-- A state with bytes stored. -/
def withBytes (s : State) (a : Nat) (bytes : List Byte) : State := { s with mem := Memory.writeBytes s.mem a bytes }

/-- A state with one pixel lit. -/
def lit (s : State) (px : Fin 64) (py : Fin 32) : State := { s with FB := (xorPixel s.FB px py).1 }

/-- The pixels that differ from a blank framebuffer, of those asked for. -/
def pixels (s : State) (ps : List (Fin 64 × Fin 32)) : List Bool := ps.map fun p => s.FB[p.1][p.2]

theorem test_TD1_unknown_halts :
    (after 0x0000 start).mode = .halted ⟨.unknownOpcode, some 0x0000, 0x200⟩ := by decide
theorem test_TD13_fetch_bound :
    (match step { start with pc := 0xFFF } with
      | .next t => t.mode
      | .fault _ | .refused _ => .running) = .halted ⟨.fetchOutOfBounds, none, 0xFFF⟩ := by decide
theorem test_TD14_last_fetch : let t := after 0x6001 { start with pc := 0xFFE }
    (t.reg 0, t.pc, t.mode) = (1, 0x1000, .running) := by decide
theorem test_TD16_odd_pc : let t := after 0x6001 { start with pc := 0x201 }
    (t.reg 0, t.pc) = (1, 0x203) := by decide

theorem test_TX1_cls : let t := after 0x00E0 (lit (lit start 0 0) 63 31)
    (pixels t [(0, 0), (63, 31)], t.changed, t.pc) = ([false, false], true, 0x202) := by decide
theorem test_TX3_cls_leaves_VF : (after 0x00E0 (start.setReg regF 1)).reg regF = 1 := by decide
theorem test_TX7_vertical_wrap : let t := after 0xD122 (withBytes { start.setReg 2 0x1F with I := 0x300 } 0x300 [0x80, 0x80])
    (pixels t [(0, 0), (0, 31), (0, 1), (1, 0)], t.reg regF) = ([true, true, false, false], 0) := by decide
theorem test_TX9_collision : let t := after 0xD121 (lit (withBytes { start with I := 0x300 } 0x300 [0xC0]) 1 0)
    (pixels t [(0, 0), (1, 0)], t.reg regF, t.changed) = ([true, false], 1, true) := by decide
theorem test_TX13_draw_faults : let t := after 0xD122 { start with I := 0xFFF }
    t.mode = .halted ⟨.memoryOutOfBounds, some 0xD122, 0x200⟩ := by decide

theorem test_TC2_ret : let t := after 0x00EE { start with SP := 15, stack := start.stack.set 15 0x3A2, pc := 0x500 }
    (t.SP, t.pc) = (14, 0x3A2) := by decide
theorem test_TC3_ret_underflow :
    (after 0x00EE { start with pc := 0x212 }).mode = .halted ⟨.stackUnderflow, some 0x00EE, 0x212⟩ := by decide
theorem test_TC4_jp : (after 0x1ABC start).pc = 0xABC := by decide
theorem test_TC8_call : let t := after 0x2300 { start with SP := 14, pc := 0x204 }
    (t.SP, t.stack[15], t.stack[14], t.pc) = (15, 0x206, 0, 0x300) := by decide
theorem test_TC9_call_overflow :
    (after 0x2300 { start with SP := 15, pc := 0x204 }).mode = .halted ⟨.stackOverflow, some 0x2300, 0x204⟩ := by decide
theorem test_TC11_jp_v0 : (after 0xBFFF (start.setReg 0 0xFF)).pc = 0x10FE := by decide
theorem test_TC12_se_imm : (after 0x3310 (start.setReg 3 0x10)).pc = 0x204 := by decide
theorem test_TC13_se_imm : (after 0x3311 (start.setReg 3 0x10)).pc = 0x202 := by decide
theorem test_TC14_sne_imm : (after 0x4311 (start.setReg 3 0x10)).pc = 0x204 := by decide
theorem test_TC15_sne_imm : (after 0x4310 (start.setReg 3 0x10)).pc = 0x202 := by decide
theorem test_TC16_se_reg : (after 0x5120 ((start.setReg 1 7).setReg 2 7)).pc = 0x204 := by decide
theorem test_TC17_se_reg : (after 0x5120 ((start.setReg 1 7).setReg 2 8)).pc = 0x202 := by decide
theorem test_TC19_sne_reg : (after 0x9120 ((start.setReg 1 7).setReg 2 8)).pc = 0x204 := by decide
theorem test_TC20_sne_reg : (after 0x9110 start).pc = 0x202 := by decide

theorem test_TA1_ld_imm : (after 0x6A03 start).reg 0xA = 3 := by decide
theorem test_TA3_add_imm_wraps : let t := after 0x71FF ((start.setReg 1 5).setReg regF 0x77)
    (t.reg 1, t.reg regF) = (4, 0x77) := by decide
theorem test_TA5_ld_reg : (after 0x8120 (start.setReg 2 0x9D)).reg 1 = 0x9D := by decide
theorem test_TA6_or_leaves_VF : let t := after 0x8121 (((start.setReg 1 0xF0).setReg 2 0x0F).setReg regF 0x55)
    (t.reg 1, t.reg regF) = (0xFF, 0x55) := by decide
theorem test_TA7_and : (after 0x8122 ((start.setReg 1 0xF0).setReg 2 0x3C)).reg 1 = 0x30 := by decide
theorem test_TA8_xor : (after 0x8123 ((start.setReg 1 0xF0).setReg 2 0x3C)).reg 1 = 0xCC := by decide
theorem test_TA13_add_no_carry : let t := after 0x8124 (((start.setReg 1 0x80).setReg 2 0x7F).setReg regF 1)
    (t.reg 1, t.reg regF) = (0xFF, 0) := by decide
theorem test_TA15_add_into_VF : (after 0x8F24 ((start.setReg regF 0xFF).setReg 2 2)).reg regF = 1 := by decide
theorem test_TA17_sub_borrow : let t := after 0x8125 (((start.setReg 1 1).setReg 2 2).setReg regF 1)
    (t.reg 1, t.reg regF) = (0xFF, 0) := by decide
theorem test_TA19_sub_equal : let t := after 0x8125 (((start.setReg 1 5).setReg 2 5).setReg regF 1)
    (t.reg 1, t.reg regF) = (0, 0) := by decide
theorem test_TA22_subn : let t := after 0x8127 ((start.setReg 1 2).setReg 2 5)
    (t.reg 1, t.reg regF) = (3, 1) := by decide
theorem test_TA23_subn_borrow : let t := after 0x8127 (((start.setReg 1 5).setReg 2 2).setReg regF 1)
    (t.reg 1, t.reg regF) = (0xFD, 0) := by decide
theorem test_TA26_shr_ignores_y : let t := after 0x8126 (((start.setReg 1 4).setReg 2 0xFF).setReg regF 1)
    (t.reg 1, t.reg 2, t.reg regF) = (2, 0xFF, 0) := by decide
theorem test_TA28_shr_VF : (after 0x8F06 (start.setReg regF 3)).reg regF = 1 := by decide
theorem test_TA29_shl : let t := after 0x810E (start.setReg 1 0x81)
    (t.reg 1, t.reg regF) = (2, 1) := by decide
theorem test_TA32_shl_VF : (after 0x8F0E (start.setReg regF 0xC1)).reg regF = 0x82 := by decide
theorem test_TA33_rnd : (after 0xC10F { start with turns := [⟨quiet.keys, 0xA7, 0, 0⟩] }).reg 1 = 7 := by decide

theorem test_TM1_ld_i : (after 0xA300 start).I = 0x300 := by decide
theorem test_TM3_add_i_holds : let t := after 0xF21E { start.setReg 2 1 with I := 0xFFF }
    (t.I, t.reg regF) = (0x1000, 0) := by decide
theorem test_TM4_add_i_wraps : (after 0xF21E { start.setReg 2 2 with I := 0xFFFF }).I = 1 := by decide
theorem test_TM6_ld_f : (after 0xF029 (start.setReg 0 5)).I = 0x069 := by decide
theorem test_TM8_ld_f_unmasked : (after 0xF029 (start.setReg 0 0xFF)).I = 0x54B := by decide
theorem test_TM9_bcd : let t := after 0xF133 { start.setReg 1 0x9D with I := 0x300 }
    (Memory.readBytes t.mem 0x2FF 5, t.pc) = ([0, 1, 5, 7, 0], 0x202) := by decide
theorem test_TM13_bcd_faults : let t := after 0xF133 { start.setReg 1 0xFF with I := 0xFFE }
    (t.mode, Memory.read t.mem 0xFFE) = (.halted ⟨.memoryOutOfBounds, some 0xF133, 0x200⟩, 0) := by decide
theorem test_TM14_store : let t := after 0xF155 { (start.setReg 0 1).setReg 1 2 with I := 0x300 }
    (Memory.readBytes t.mem 0x300 3, t.I) = ([1, 2, 0], 0x300) := by decide
theorem test_TM16_store_faults : let t := after 0xF155 { start.setReg 0 1 with I := 0xFFF }
    (t.mode, Memory.read t.mem 0xFFF) = (.halted ⟨.memoryOutOfBounds, some 0xF155, 0x200⟩, 0) := by decide
theorem test_TM17_load : let t := after 0xF265 (withBytes { start.setReg 3 9 with I := 0x300 } 0x300 [1, 5, 7, 8])
    (t.reg 0, t.reg 1, t.reg 2, t.reg 3) = (1, 5, 7, 9) := by decide
theorem test_TM18_load_VF : (after 0xFF65 (withBytes { start with I := 0x300 } 0x30F [0xEE])).reg regF = 0xEE := by decide

theorem test_TI1_skp : (after 0xE09E { start.setReg 0 7 with turns := [press 7] }).pc = 0x204 := by decide
theorem test_TI2_skp_other_key : (after 0xE09E { start.setReg 0 7 with turns := [press 3] }).pc = 0x202 := by decide
theorem test_TI4_sknp : (after 0xE0A1 { start.setReg 0 7 with turns := [press 7] }).pc = 0x202 := by decide
theorem test_TI6_sknp_faults :
    (after 0xE0A1 (start.setReg 0 0xFF)).mode = .halted ⟨.keyOutOfRange, some 0xE0A1, 0x200⟩ := by decide
theorem test_TI7_ld_from_dt : (after 0xFB07 { start with DT := 2 }).reg 0xB = 2 := by decide
theorem test_TI8_ld_key : let t := after 0xF00A { start with turns := [press 7] }
    (t.reg 0, t.pc, t.mode) = (7, 0x202, .running) := by decide
theorem test_TI9_ld_key_waits : let t := after 0xF00A start
    (t.mode, t.pc) = (.awaitingKey 0, 0x200) := by decide
theorem test_TI10_ld_dt : (after 0xFA15 (start.setReg 0xA 3)).DT = 3 := by decide
theorem test_TI11_ld_st : (after 0xF118 (start.setReg 1 0x3C)).ST = 60 := by decide

theorem test_TR4_font :
    (Memory.readBytes State.reset.mem 0x050 5, Memory.readBytes State.reset.mem 0x09B 5) =
      ([0xF0, 0x90, 0x90, 0x90, 0xF0], [0xF0, 0x80, 0xF0, 0x80, 0x80]) := by decide
theorem test_TR3_rom_too_large :
    (start.loadRom (List.replicate 3585 1)).mode = .halted ⟨.romTooLarge, none, 0x200⟩ := by
  have h : romFits (List.replicate 3585 1) = false := by
    rw [romFits, List.length_replicate]; decide
  rw [State.loadRom, h]; rfl
theorem test_TT1_tick : let t := State.timerTick { start with DT := 3 }
    (t.DT, t.ST) = (2, 0) := by decide
theorem test_P4_frame_ticks_after_the_step :
    (after 0xFA15 { start.setReg 0xA 3 with turns := [⟨quiet.keys, 0, 0, 1⟩] }).DT = 2 := by decide
/-- TS1 and TS2: a waiting step with no key clears Changed only; with a key it completes the Fx0A. -/
theorem test_TS1_TS2_key_wait :
    (match step { start with mode := .awaitingKey 3, pc := 0x20A, changed := true } with
      | .next t => (t.changed, t.pc, t.mode, t.reg 3)
      | .fault _ | .refused _ => (true, 0, .running, 0)) = (false, 0x20A, .awaitingKey 3, 0) ∧
    (match step { start with mode := .awaitingKey 3, pc := 0x20A, turns := [press 0xB] } with
      | .next t => (t.changed, t.pc, t.mode, t.reg 3)
      | .fault _ | .refused _ => (true, 0, .running, 0)) = (false, 0x20C, .running, 0x0B) := by decide
/-- TS3: with keys 2 and 9 pressed, both answers are choices. -/
theorem test_TS3_pick :
    (pickKey ((press 2).keys.set 9 true) 0, pickKey ((press 2).keys.set 9 true) 1) = (some 2, some 9) := by decide
theorem test_TS6_changed_cleared : (after 0x6000 { start with changed := true }).changed = false := by decide

/-! ## Witnesses: the hypotheses of each statement can be met -/

/-- A halted state, as vector TS5 has it. -/
def stopped : State := { start with mode := .halted ⟨.unknownOpcode, some 0, 0x200⟩ }

/-- A state whose next word is `w`. -/
def ready (w : Nat) : State := start.withFetchWord 16 w

theorem witness_EncodeInvertsDecode : decodeWord 0x8126 = some (.shr 1 2) := by decide
theorem witness_OpcodeRowsAreDisjoint : ∃ r ∈ opcodeMap, r.fits 0x8126 = true := by
  exact ⟨opcodeMap[15], by simp [opcodeMap, rowsFlow, rowsRegister, rowsAddress, rowsFunction], by decide⟩
theorem witness_RunningStepRunsTheDecodedInstruction : let s := State.withFetchWord { start with pc := 0xFFE } 16 0x6001
    s.mode = .running ∧ s.pc.toNat + 1 ≤ 0xFFF ∧ decodeWord s.opcode = some (.ldImm 0 1) := by decide
theorem witness_FetchAndDecodeFaultsHalt_fetch : let s : State := { start with pc := 0xFFF }
    s.mode = .running ∧ s.pc.toNat + 1 > 0xFFF := by decide
theorem witness_FetchAndDecodeFaultsHalt_decode : let s : State := { start with pc := 0xFFE }
    s.mode = .running ∧ s.pc.toNat + 1 ≤ 0xFFF ∧ decodeWord s.opcode = none := by decide
theorem witness_HaltedIsFinal : stopped.isHalted = true := by decide
theorem witness_EveryFaultIsPrecise : let s : State := { ready 0x2300 with SP := 15 }
    ∃ t d, s.isHalted = false ∧ step s = .next t ∧ t.mode = .halted d :=
  ⟨after 0x2300 { start with SP := 15 }, ⟨.stackOverflow, some 0x2300, 0x200⟩, by decide, by rfl, by decide⟩
theorem witness_AStepFaultsExactlyWhereListed_fetch : let s : State := { start with pc := 0xFFF }
    s.mode = .running ∧ StepFaultCondition s .fetchOutOfBounds :=
  ⟨rfl, .inl ⟨by decide, rfl⟩⟩
theorem witness_AStepFaultsExactlyWhereListed_decode :
    start.mode = .running ∧ StepFaultCondition start .unknownOpcode :=
  ⟨rfl, .inr (.inl ⟨by decide, by decide, rfl⟩)⟩
theorem witness_AStepFaultsExactlyWhereListed_stack :
    let full : State := { ready 0x2300 with SP := 15 }
    (full.mode = .running ∧ StepFaultCondition full .stackOverflow) ∧
      (ready 0x00EE).mode = .running ∧ StepFaultCondition (ready 0x00EE) .stackUnderflow :=
  ⟨⟨by decide, .inr (.inr ⟨by decide, _, rfl, ⟨_, rfl⟩, rfl⟩)⟩, by decide, .inr (.inr ⟨by decide, _, rfl, rfl, rfl⟩)⟩
theorem witness_AStepFaultsExactlyWhereListed_memory :
    let drawing : State := { ready 0xD122 with I := 0xFFF }
    let storing : State := { ready 0xF155 with I := 0xFFF }
    (drawing.mode = .running ∧ StepFaultCondition drawing .memoryOutOfBounds) ∧
      storing.mode = .running ∧ StepFaultCondition storing .memoryOutOfBounds :=
  ⟨⟨by decide, .inr (.inr ⟨by decide, .drw 1 2 2, by decide, .inl ⟨_, _, _, rfl, by decide, by decide⟩⟩)⟩,
    by decide, .inr (.inr ⟨by decide, .storeRegs 1, by decide, .inr (.inr ⟨_, .inl rfl, by decide, by decide⟩)⟩)⟩
theorem witness_AStepFaultsExactlyWhereListed_key : let s : State := (ready 0xE09E).setReg 0 0x10
    s.mode = .running ∧ StepFaultCondition s .keyOutOfRange :=
  ⟨by decide, .inr (.inr ⟨by decide, .skp 0, by decide, _, .inl rfl, by decide⟩)⟩
theorem witness_StepKeepsTheInvariant :
    ∃ t, State.Inv (ready 0x6001) ∧ step (ready 0x6001) = .next t ∧ t.mode = .running ∧ t.V[(0 : Reg)] = 1 := by
  have running : (ready 0x6001).mode = .running := by decide
  refine ⟨after 0x6001 start, ⟨by decide, by decide, by decide, ?_, ?_⟩, by rfl, by decide, by decide⟩
  · intro x h
    rw [running] at h
    cases h
  · intro d h
    rw [running] at h
    cases h
theorem witness_StackSlotZeroIsNeverWritten : ∃ t, step (ready 0x2300) = .next t ∧ t.SP = 1 :=
  ⟨after 0x2300 start, rfl, by decide⟩
theorem witness_StorageHasItsWriters :
    (∃ t, exec (.ldI 1) start = .next t ∧ t.I ≠ start.I) ∧
    (∃ t, exec .ret { start with SP := 1 } = .next t ∧ t.SP ≠ 1) ∧
    (∃ t, exec (.call 0) start = .next t ∧ t.stack ≠ start.stack) ∧
    (∃ t, exec (.ldB 0) (start.setReg 0 100) = .next t ∧ Memory.read t.mem 0 ≠ Memory.read start.mem 0) :=
  ⟨⟨_, rfl, by decide⟩, ⟨_, rfl, by decide⟩, ⟨_, rfl, by decide⟩, ⟨_, rfl, by decide⟩⟩
theorem witness_DisplayAndTimersHaveTheirWriters :
    (∃ t, exec .cls (lit start 5 5) = .next t ∧ t.FB ≠ (lit start 5 5).FB ∧ t.changed = true) ∧
    (∃ t, exec (.ldDT 0) (start.setReg 0 1) = .next t ∧ t.DT ≠ start.DT) ∧
    (∃ t, exec (.ldST 0) (start.setReg 0 1) = .next t ∧ t.ST ≠ start.ST) :=
  ⟨⟨_, rfl, by decide, rfl⟩, ⟨_, rfl, by decide⟩, ⟨_, rfl, by decide⟩⟩
theorem witness_PcEffectsAreTheListedOnes :
    (∃ t, exec (.jp 0x300) start = .next t ∧ t.mode = .running ∧ JumpsTo (.jp 0x300) start 0x300) ∧
    (∃ t, exec (.seImm 0 0) start = .next t ∧ t.mode = .running ∧ SkipHolds (.seImm 0 0) start) ∧
    (∃ t, exec (.ldKey 0) start = .next t ∧ t.mode ≠ .running) :=
  ⟨⟨_, rfl, rfl, .inl ⟨_, .inl rfl, by decide⟩⟩, ⟨_, rfl, rfl, .inl ⟨0, 0, rfl, rfl⟩⟩, ⟨_, rfl, by decide⟩⟩
theorem witness_InputsReachOnlyTheirReaders :
    ∃ t, exec (.ldKey 0) { start with turns := [press 7] } = .next t ∧
      (State.withInputs { start with turns := [press 7] } [press 7, quiet] 9).turn.keys = (press 7).keys ∧
      (State.withInputs { start with turns := [press 7] } [press 7, quiet] 9).turn.pick = (press 7).pick :=
  ⟨_, rfl, rfl, rfl⟩
theorem witness_DrawFlipsTheSpritePixels_fits : ¬ rangeOverruns 0xFF1 15 ∧ ¬ rangeOverruns 0x1000 0 := by
  simp [rangeOverruns]
theorem witness_DrawFlipsTheSpritePixels_overruns : rangeOverruns 0xFF2 15 ∧ rangeOverruns 0xFFFF 15 := by
  simp [rangeOverruns]
theorem witness_DrawFlipsTheSpritePixels_covers :
    let s := lit (withBytes { start with I := 0xFFF } 0xFFF [0x01]) 7 0
    SpriteCovers 0 0 1 s 7 0 ∧ s.FB[(7 : Fin 64)][(0 : Fin 32)] = true :=
  ⟨⟨0, 7, by decide, by decide, by decide, by decide, by decide⟩, by decide⟩
theorem witness_DrawFlipsTheSpritePixels_no_collision :
    ∀ px py, SpriteCovers 0 0 1 (withBytes { start with I := 0x300 } 0x300 [0x80]) px py →
      (withBytes { start with I := 0x300 } 0x300 [0x80]).FB[px][py] = false := by
  intro px py _
  simp [withBytes, start, State.reset]
theorem witness_SpritePixelsAreDistinct : pixelColumn 63 7 = pixelColumn 63 7 ∧ pixelRow 31 14 = pixelRow 31 14 ∧ 14 < 15 :=
  ⟨rfl, rfl, by decide⟩
theorem witness_DrawingTwiceRestoresTheScreen :
    (1 : Reg) ≠ regF ∧ (2 : Reg) ≠ regF ∧ ¬ rangeOverruns 0x300 1 ∧
    ∃ t, exec (.drw 1 2 1) (withBytes { start with I := 0x300 } 0x300 [0xA0]) = .next t ∧
      t.FB[(0 : Fin 64)][(0 : Fin 32)] = true ∧ start.FB[(0 : Fin 64)][(0 : Fin 32)] = false :=
  ⟨by decide, by decide, by simp [rangeOverruns], _, rfl, by decide, by decide⟩
theorem witness_DrawAfterClearHasNoCollision : ¬ rangeOverruns start.I 15 := by simp [rangeOverruns, start, State.reset]
theorem witness_CallPushesTheReturnAddress :
    State.SP { start with SP := 14 } < 15 ∧ (State.SP { start with SP := 15 }).val = 15 := by decide
theorem witness_ReturnPopsTheAddress :
    0 < (State.SP { start with SP := 1 }).val ∧ start.SP.val = 0 := by decide
theorem witness_CallAndReturnRoundTrip :
    start.SP.val < 15 ∧ ∃ t, exec (.call 0x300) start = .next t ∧ ∃ t' : State, t'.SP = t.SP ∧ t'.stack[t.SP] = t.stack[t.SP] :=
  ⟨by decide, _, rfl, _, rfl, rfl⟩
theorem witness_Skips :
    (start.setReg 1 7).V[(1 : Reg)] = 7 ∧ (start.setReg 1 7).V[(1 : Reg)] ≠ 8 ∧
    (start.setReg 1 7).V[(1 : Reg)] ≠ (start.setReg 1 7).V[(2 : Reg)] ∧ start.V[(1 : Reg)] = start.V[(2 : Reg)] := by decide
theorem witness_flag_instructions : (1 : Reg) ≠ regF := by decide
theorem witness_DecimalDigitsAreStored :
    (0xFFD : Word).toNat + 2 ≤ 0xFFF ∧ (0xFFE : Word).toNat + 2 > 0xFFF := by decide
theorem witness_RegistersAreStored_and_Loaded :
    (0xFF0 : Word).toNat + (15 : Reg).val ≤ 0xFFF ∧ (0xFF1 : Word).toNat + (15 : Reg).val > 0xFFF ∧
    (0xFFF : Word).toNat + (0 : Reg).val ≤ 0xFFF ∧ (0x1000 : Word).toNat + (0 : Reg).val > 0xFFF ∧
    (15 : Reg) ≤ 15 ∧ (14 : Reg) < 15 := by decide
theorem witness_StoreThenLoadRestoresTheRegisters :
    ∃ t, exec (.storeRegs 1) { start with I := 0xFFE } = .next t ∧ ∃ t' : State, t'.I = t.I ∧
      ∀ j, j ≤ 1 → Memory.read t'.mem (t.I.toNat + j) = Memory.read t.mem (t.I.toNat + j) :=
  ⟨_, rfl, _, rfl, fun _ _ => rfl⟩
theorem witness_StoredCodeIsFetchedNext : let s : State := { start with I := 0x202 }
    s.I.toNat + (1 : Reg).val ≤ 0xFFF ∧ (1 : Reg).val = (0 : Reg).val + 1 ∧ (1 : Reg) ≤ 1 ∧
      s.pc.toNat + 2 = s.I.toNat + (0 : Reg).val := by decide
theorem witness_SkipsOnKeys : let s : State := { start.setReg 0 0xF with turns := [press 0xF] }
    s.V[(0 : Reg)].toNat = (0xF : Fin 16).val ∧ s.turn.keys[(0xF : Fin 16)] = true ∧ start.turn.keys[(0xF : Fin 16)] = false ∧
      (start.setReg 0 0x10).V[(0 : Reg)].toNat > 0xF := by decide
theorem witness_KeyWait_pressed : SomeKeyPressed { start with turns := [press 0] } := ⟨0, by decide⟩
theorem witness_KeyWait_none_pressed : ¬ SomeKeyPressed start := by unfold SomeKeyPressed; decide
theorem witness_WaitingStepPolls : State.mode { start with mode := .awaitingKey 3 } = .awaitingKey 3 := rfl
theorem witness_EveryPressedKeyCanBePicked : (press 0xF).keys[(0xF : Fin 16)] = true ∧ ∀ j : Fin 16, quiet.keys[j] = false := by
  decide
theorem witness_FirstPressedKeyEndsTheWait :
    let s : State := { start with mode := .awaitingKey 3, turns := [quiet, quiet] ++ press 9 :: [] }
    s.mode = .awaitingKey 3 ∧ s.turns = [quiet, quiet] ++ press 9 :: [] ∧
      (∀ q ∈ [quiet, quiet], ∀ k : Fin 16, q.keys[k] = false) ∧ ∃ k : Fin 16, (press 9).keys[k] = true :=
  ⟨rfl, rfl, by decide, 9, by decide⟩
theorem witness_timers : let s : State := { start with DT := 1, ST := 0xFF }
    s.mode = .running ∧ s.DT ≠ 0 ∧ s.ST ≠ 0 ∧ stopped.mode = .halted ⟨.unknownOpcode, some 0, 0x200⟩ := by decide
theorem witness_LoadRomWritesAllOrNothing_and_Boot :
    (List.replicate 3584 (1 : Byte)).length ≤ 3584 ∧ (List.replicate 3585 (1 : Byte)).length > 3584 ∧
      3583 < (List.replicate 3584 (1 : Byte)).length := by
  rw [List.length_replicate, List.length_replicate]; decide

end Sys2Proof.Tests
end

section
/-! PROOFS. The operations that write a block of bytes: what they leave unchanged, and `load_fontset()` (spec/20_memory.md R55). -/

namespace Sys2Proof.Machine

/-! ## Frames -/

theorem changesOnly_mem_of_update (s : State) (m : Memory) : ChangesOnly [.mem] s { s with mem := m } := by
  intro c hc
  cases c with
  | mem => exact absurd (List.mem_singleton.mpr rfl) hc
  | V => exact fun _ => rfl
  | inputs => exact ⟨rfl, rfl⟩
  | I | pc | SP | stack | DT | ST | FB | changed | mode => rfl

/-- A state that may differ in memory alone, and whose memory reads the same everywhere, does not differ at all. -/
theorem ChangesOnly.nil_of_mem {s t : State} (h : ChangesOnly [.mem] s t) (hmem : Unchanged s t .mem) :
    ChangesOnly [] s t := by
  intro c _
  by_cases hc : c = .mem
  · exact hc ▸ hmem
  · exact h c (by simpa using hc)

theorem memoryKeptOutside_writeBytes (s : State) (base : Nat) (bytes : List Byte) :
    MemoryKeptOutside base bytes.length s { s with mem := Memory.writeBytes s.mem base bytes } :=
  fun _ ha => Memory.read_writeBytes_outside bytes s.mem ha

/-- Writing the same bytes to the same place again changes no read. -/
theorem Memory.read_writeBytes_writeBytes (bytes : List Byte) (m : Memory) (a c : Nat) :
    Memory.read (Memory.writeBytes (Memory.writeBytes m a bytes) a bytes) c =
      Memory.read (Memory.writeBytes m a bytes) c := by
  by_cases h : a ≤ c ∧ c - a < bytes.length
  · rw [Memory.read_writeBytes, Memory.read_writeBytes, dif_pos h, dif_pos h]
  · exact Memory.read_writeBytes_outside bytes _ (by omega)

/-! ## `load_fontset()` -/

theorem State.loadFont_read_font (s : State) (font : Vector Byte 80) (i : Fin 80) :
    Memory.read (s.loadFont font).mem (0x050 + i.val) = font[i] := by
  have hi : i.val < font.toList.length := by simp
  calc Memory.read (s.loadFont font).mem (0x050 + i.val)
      = font.toList[i.val] := Memory.read_writeBytes_inside font.toList s.mem 0x050 i.val hi
    _ = font[i] := by simp

theorem State.loadFont_keepsOutside (s : State) (font : Vector Byte 80) :
    MemoryKeptOutside 0x050 80 s (s.loadFont font) := by
  have h := memoryKeptOutside_writeBytes s Config.fontBase font.toList
  rwa [Vector.length_toList] at h

theorem State.loadFont_changesOnly_mem (s : State) (font : Vector Byte 80) :
    ChangesOnly [.mem] s (s.loadFont font) :=
  changesOnly_mem_of_update s _

theorem State.loadFont_idempotent (s : State) (font : Vector Byte 80) :
    ChangesOnly [] (s.loadFont font) ((s.loadFont font).loadFont font) :=
  (State.loadFont_changesOnly_mem _ font).nil_of_mem
    (Memory.read_writeBytes_writeBytes font.toList s.mem Config.fontBase)

/-- Settles O58: the reads, the frame and the idempotence of one block write of the 80 bytes at 0x050. -/
theorem loadFontWritesTheFontRegion : Obligations.LoadFontWritesTheFontRegion := fun s font =>
  ⟨s.loadFont_read_font font, s.loadFont_keepsOutside font, s.loadFont_changesOnly_mem font,
    s.loadFont_idempotent font⟩

end Sys2Proof.Machine
end

section
/-! PROOFS. Jump and register skips (spec/41_control_flow.md): the decoder on a word whose opcode nibble has one row, and instructions that do no more than a PC effect. -/

namespace Sys2Proof

/-! ## Decoding by the opcode nibble (spec/30_encoding.md R81, R85) -/

/-- Bits 15 to 12. -/
def opNibble (w : Word) : BitVec 4 := w.extractLsb' 12 4

/-- The rows of the opcode map whose pattern has the nibble `op` on top. -/
def rowsOfOpcode (op : BitVec 4) : List OpcodeRow := opcodeMap.filter (fun r => opNibble r.pattern == op)

@[simp] theorem opNibble_packNNN (op : BitVec 4) (nnn : BitVec 12) : opNibble (packNNN op nnn) = op :=
  BitVec.extractLsb'_append_eq_left

@[simp] theorem opNibble_packXKK (op : BitVec 4) (x : Reg) (kk : Byte) : opNibble (packXKK op x kk) = op := by
  rw [packXKK, BitVec.append_assoc]
  exact opNibble_packNNN op (nibble x ++ kk)

@[simp] theorem opNibble_packXYN (op : BitVec 4) (x y : Reg) (n : BitVec 4) : opNibble (packXYN op x y n) = op := by
  rw [packXYN, BitVec.append_assoc]
  exact opNibble_packXKK op x (nibble y ++ n)

/-- Every row fixes the opcode nibble. -/
theorem opNibble_mask : ∀ r ∈ opcodeMap, opNibble r.mask = 0xF#4 := by decide

/-- A word fits only rows of its own opcode nibble. -/
theorem mem_rowsOfOpcode_of_fits {r : OpcodeRow} {w : Word} (hr : r ∈ opcodeMap) (hfit : r.fits w = true) :
    r ∈ rowsOfOpcode (opNibble w) := by
  have hpattern : opNibble r.pattern = opNibble w := by
    calc opNibble r.pattern
        = opNibble (w &&& r.mask) := by rw [beq_iff_eq.mp hfit]
      _ = opNibble w &&& opNibble r.mask := BitVec.extractLsb'_and
      _ = opNibble w := by rw [opNibble_mask r hr]; exact BitVec.and_allOnes
  exact List.mem_filter.mpr ⟨hr, beq_iff_eq.mpr hpattern⟩

/-- The word of an instruction decodes to it where the map has a single row of the word's opcode nibble. -/
theorem decodeWord_encode_of_sole_row {i : Instr} {row : OpcodeRow} (hform : Laws.EncodedForm.Statement i)
    (hsole : rowsOfOpcode (opNibble (encode i)) = [row]) : decodeWord (encode i) = some i := by
  obtain ⟨-, r, hr, hfit, hbuild⟩ := hform
  have is_row : ∀ r' ∈ opcodeMap, r'.fits (encode i) = true → r' = row := fun r' hr' hfit' =>
    List.mem_singleton.mp (hsole ▸ mem_rowsOfOpcode_of_fits hr' hfit')
  cases hd : decodeWord (encode i) with
  | none => simp [decodeWord_eq_none.mp hd r hr] at hfit
  | some j =>
    obtain ⟨r', hr', hfit', hbuild'⟩ := decodeWord_row hd
    rw [← hbuild, ← hbuild', is_row r hr hfit, is_row r' hr' hfit']

theorem decodeWord_encode_jp (nnn : BitVec 12) : decodeWord (encode (.jp nnn)) = some (.jp nnn) :=
  decodeWord_encode_of_sole_row (Laws.EncodedForm.jp nnn) (by rw [encode, opNibble_packNNN]; rfl)

theorem decodeWord_encode_seImm (x : Reg) (kk : Byte) : decodeWord (encode (.seImm x kk)) = some (.seImm x kk) :=
  decodeWord_encode_of_sole_row (Laws.EncodedForm.seImm x kk) (by rw [encode, opNibble_packXKK]; rfl)

theorem decodeWord_encode_sneImm (x : Reg) (kk : Byte) : decodeWord (encode (.sneImm x kk)) = some (.sneImm x kk) :=
  decodeWord_encode_of_sole_row (Laws.EncodedForm.sneImm x kk) (by rw [encode, opNibble_packXKK]; rfl)

theorem decodeWord_encode_seReg (x y : Reg) : decodeWord (encode (.seReg x y)) = some (.seReg x y) :=
  decodeWord_encode_of_sole_row (Laws.EncodedForm.seReg x y) (by rw [encode, opNibble_packXYN]; rfl)

theorem decodeWord_encode_sneReg (x y : Reg) : decodeWord (encode (.sneReg x y)) = some (.sneReg x y) :=
  decodeWord_encode_of_sole_row (Laws.EncodedForm.sneReg x y) (by rw [encode, opNibble_packXYN]; rfl)

/-! ## Zero extension (spec/00_scope.md R11) -/

theorem zext16_toNat {w : Nat} (h : w ≤ 16) (v : BitVec w) : (zext16 v).toNat = v.toNat :=
  BitVec.toNat_setWidth_of_le h

end Sys2Proof

namespace Sys2Proof.Machine

/-! ## Instructions that do no more than a PC effect (spec/30_encoding.md R94) -/

theorem changesOnly_pc_of_update (s : State) (p : Word) : ChangesOnly [.pc] s { s with pc := p } := by
  intro c hc
  cases c with
  | pc => exact absurd (List.mem_singleton.mpr rfl) hc
  | V | mem => exact fun _ => rfl
  | inputs => exact ⟨rfl, rfl⟩
  | I | SP | stack | DT | ST | FB | changed | mode => rfl

theorem State.applyEffect_skipIf_changesOnly_pc (s : State) (condition : Bool) :
    ChangesOnly [.pc] s (s.applyEffect (skipIf condition)) := by
  cases condition with
  | true => exact changesOnly_pc_of_update s (s.pc + 4)
  | false => exact changesOnly_pc_of_update s (s.pc + 2)

/-- What a skip instruction does, where `P` makes its condition hold and `Q` makes it fail. -/
theorem exec_of_skipIf {i : Instr} {s : State} {condition : Bool} {P Q : Prop}
    (hexec : exec i s = complete s (skipIf condition)) (hskip : P → condition = true) (hnext : Q → condition = false) :
    ∃ t, exec i s = .next t ∧ (P → t.pc = s.pc + 4) ∧ (Q → t.pc = s.pc + 2) ∧ ChangesOnly [.pc] s t := by
  refine ⟨s.applyEffect (skipIf condition), hexec, fun hP => ?_, fun hQ => ?_,
    s.applyEffect_skipIf_changesOnly_pc condition⟩
  · rw [hskip hP]; rfl
  · rw [hnext hQ]; rfl

/-! ## The obligations -/

/-- Settles O26: 1nnn is the only row of its opcode nibble, and its jump is an update of pc alone. -/
theorem jumpGoesToItsTarget : Obligations.JumpGoesToItsTarget := fun nnn s =>
  ⟨decodeWord_encode_jp nnn, s.applyEffect (.jump (zext16 nnn)), rfl, zext16_toNat (by decide) nnn,
    changesOnly_pc_of_update s (zext16 nnn)⟩

/-- Settles O31: the two skip conditions compare Vx with kk. -/
theorem skipsOnImmediates : Obligations.SkipsOnImmediates := fun x kk s =>
  ⟨decodeWord_encode_seImm x kk, decodeWord_encode_sneImm x kk,
    exec_of_skipIf (condition := s.reg x == kk) rfl beq_iff_eq.mpr beq_eq_false_iff_ne.mpr,
    exec_of_skipIf (condition := s.reg x != kk) rfl bne_iff_ne.mpr bne_eq_false_iff_eq.mpr⟩

/-- Settles O32: the two skip conditions compare Vx with Vy. -/
theorem skipsOnRegisters : Obligations.SkipsOnRegisters := fun x y s =>
  ⟨decodeWord_encode_seReg x y, decodeWord_encode_sneReg x y,
    exec_of_skipIf (condition := s.reg x == s.reg y) rfl beq_iff_eq.mpr beq_eq_false_iff_ne.mpr,
    exec_of_skipIf (condition := s.reg x != s.reg y) rfl bne_iff_ne.mpr bne_eq_false_iff_eq.mpr⟩

end Sys2Proof.Machine
end

section
/-! PROOFS. Register loads, copies and logic (spec/42_alu.md): the decoder on the rows of one opcode nibble that share a mask, and instructions that write one register and go on. -/

namespace Sys2Proof

/-! ## Decoding among rows that share a mask (spec/30_encoding.md R84, R85) -/

/-- Where all rows of the word's opcode nibble have the same mask, the decoder's row is the one whose pattern is the word under that mask. -/
theorem decodeWord_of_common_mask {w mask : Word} (hmask : ∀ r ∈ rowsOfOpcode (opNibble w), r.mask = mask) :
    decodeWord w = ((rowsOfOpcode (opNibble w)).find? (fun r => r.pattern == w &&& mask)).map (·.build w) := by
  rw [decodeWord, rowsOfOpcode, List.find?_filter]
  congr 1
  refine List.find?_congr fun r hr => ?_
  by_cases hop : opNibble r.pattern = opNibble w
  · have hm : r.mask = mask := hmask r (List.mem_filter.mpr ⟨hr, beq_iff_eq.mpr hop⟩)
    simp [OpcodeRow.fits, hm, hop, Bool.beq_eq_decide_eq, eq_comm]
  · have hno : ¬ r.fits w = true := fun hfit =>
      hop (beq_iff_eq.mp (List.mem_filter.mp (mem_rowsOfOpcode_of_fits hr hfit)).2)
    simp [hno, hop]

/-- 8xyn decodes by its low nibble: all nine rows have the mask 0xF00F, so the row found for `n` builds the instruction from the fields x and y. -/
theorem decodeWord_packXYN_8 {row : OpcodeRow} {i : Reg → Reg → Instr} (x y : Reg) {n : BitVec 4}
    (hfind : (rowsOfOpcode 0x8#4).find? (fun r => r.pattern == 0x8#4 ++ 0#8 ++ n) = some row)
    (hbuild : ∀ w, row.build w = i (fieldX w) (fieldY w)) : decodeWord (packXYN 0x8#4 x y n) = some (i x y) := by
  have hmask : ∀ r ∈ rowsOfOpcode (opNibble (packXYN 0x8#4 x y n)), r.mask = 0xF00F#16 := by
    rw [opNibble_packXYN]
    decide
  rw [decodeWord_of_common_mask hmask, opNibble_packXYN, packXYN_and_mask, hfind, Option.map_some, hbuild,
    fieldX_packXYN, fieldY_packXYN]

/-! ## The words of the loads, of the addition and of the logic (spec/30_encoding.md R85) -/

theorem decodeWord_encode_ldImm (x : Reg) (kk : Byte) : decodeWord (encode (.ldImm x kk)) = some (.ldImm x kk) :=
  decodeWord_encode_of_sole_row (Laws.EncodedForm.ldImm x kk) (by rw [encode, opNibble_packXKK]; rfl)

theorem decodeWord_encode_addImm (x : Reg) (kk : Byte) : decodeWord (encode (.addImm x kk)) = some (.addImm x kk) :=
  decodeWord_encode_of_sole_row (Laws.EncodedForm.addImm x kk) (by rw [encode, opNibble_packXKK]; rfl)

theorem decodeWord_encode_ldReg (x y : Reg) : decodeWord (encode (.ldReg x y)) = some (.ldReg x y) :=
  decodeWord_packXYN_8 x y rfl fun _ => rfl

theorem decodeWord_encode_orReg (x y : Reg) : decodeWord (encode (.orReg x y)) = some (.orReg x y) :=
  decodeWord_packXYN_8 x y rfl fun _ => rfl

theorem decodeWord_encode_andReg (x y : Reg) : decodeWord (encode (.andReg x y)) = some (.andReg x y) :=
  decodeWord_packXYN_8 x y rfl fun _ => rfl

theorem decodeWord_encode_xorReg (x y : Reg) : decodeWord (encode (.xorReg x y)) = some (.xorReg x y) :=
  decodeWord_packXYN_8 x y rfl fun _ => rfl

end Sys2Proof

namespace Sys2Proof.Machine

/-! ## Instructions that write one register and go on -/

theorem registersKept_setReg_next (s : State) (x : Reg) (v : Byte) :
    RegistersKept [x] s ((s.setReg x v).applyEffect .next) := fun _ hr =>
  (s.reg_setReg_other v (List.ne_of_not_mem_cons hr) :)

theorem changesOnly_setReg_next (s : State) (x : Reg) (v : Byte) :
    ChangesOnly [.V, .pc] s ((s.setReg x v).applyEffect .next) := by
  intro c hc
  cases c with
  | V | pc => simp at hc
  | mem => exact fun _ => rfl
  | inputs => exact ⟨rfl, rfl⟩
  | I | SP | stack | DT | ST | FB | changed | mode => rfl

/-- What an instruction does that writes `v` to Vx and goes on to the next one, where `v` in Vx makes `Q` hold. -/
theorem exec_of_setReg {i : Instr} {s : State} {x : Reg} {v : Byte} {Q : State → Prop}
    (hexec : exec i s = complete (s.setReg x v) .next) (hQ : ∀ t : State, t.V[x] = v → Q t) :
    ∃ t, exec i s = .next t ∧ Q t ∧ RegistersKept [x] s t ∧ t.pc = s.pc + 2 ∧ ChangesOnly [.V, .pc] s t :=
  ⟨(s.setReg x v).applyEffect .next, hexec, hQ _ (s.reg_setReg_same x v), registersKept_setReg_next s x v, rfl,
    changesOnly_setReg_next s x v⟩

/-! ## The obligations -/

/-- Settles O33: each instruction is one register write; the sum of two bytes is taken modulo 256. -/
theorem loadAndAddImmediate : Obligations.LoadAndAddImmediate := fun x kk s =>
  ⟨decodeWord_encode_ldImm x kk, decodeWord_encode_addImm x kk,
    exec_of_setReg (v := kk) rfl fun _ hx => hx,
    exec_of_setReg (v := s.reg x + kk) rfl fun _ hx => hx ▸ BitVec.toNat_add (s.reg x) kk⟩

/-- Settles O34: each instruction is one register write, and the logic of bytes is the logic of their bits. -/
theorem copyAndLogic : Obligations.CopyAndLogic := fun x y s =>
  ⟨decodeWord_encode_ldReg x y, decodeWord_encode_orReg x y, decodeWord_encode_andReg x y,
    decodeWord_encode_xorReg x y,
    exec_of_setReg (v := s.reg y) rfl fun _ hx => hx,
    exec_of_setReg (v := s.reg x ||| s.reg y) rfl fun _ hx _ => hx ▸ BitVec.getLsbD_or,
    exec_of_setReg (v := s.reg x &&& s.reg y) rfl fun _ hx _ => hx ▸ BitVec.getLsbD_and,
    exec_of_setReg (v := s.reg x ^^^ s.reg y) rfl fun _ hx _ => hx ▸ BitVec.getLsbD_xor⟩

end Sys2Proof.Machine
end

section
/-! PROOFS. The timer instructions (spec/44_input_timers.md): the decoder on the format XFF, and instructions that write one timer and go on. -/

namespace Sys2Proof

/-! ## Decoding the format XFF (spec/30_encoding.md R82, R85) -/

@[simp] theorem opNibble_packXFF (op : BitVec 4) (x : Reg) (f : Byte) : opNibble (packXFF op x f) = op :=
  opNibble_packXKK op x f

/-- Every row of the opcode nibble F fixes the low byte and leaves the field x free. -/
theorem mask_of_mem_rowsOfOpcode_F : ∀ r ∈ rowsOfOpcode 0xF#4, r.mask = 0xF0FF#16 := by decide

/-- Fxff decodes by its low byte: the row found for `f` builds the instruction from the field x. -/
theorem decodeWord_packXFF_F {row : OpcodeRow} {i : Reg → Instr} (x : Reg) {f : Byte}
    (hfind : (rowsOfOpcode 0xF#4).find? (fun r => r.pattern == 0xF#4 ++ 0#4 ++ f) = some row)
    (hbuild : ∀ w, row.build w = i (fieldX w)) : decodeWord (packXFF 0xF#4 x f) = some (i x) := by
  have hmask : ∀ r ∈ rowsOfOpcode (opNibble (packXFF 0xF#4 x f)), r.mask = 0xF0FF#16 := by
    rw [opNibble_packXFF]
    exact mask_of_mem_rowsOfOpcode_F
  rw [decodeWord_of_common_mask hmask, opNibble_packXFF, packXFF_and_mask, hfind, Option.map_some, hbuild,
    fieldX_packXFF]

theorem decodeWord_encode_ldFromDT (x : Reg) : decodeWord (encode (.ldFromDT x)) = some (.ldFromDT x) :=
  decodeWord_packXFF_F x rfl fun _ => rfl

theorem decodeWord_encode_ldDT (x : Reg) : decodeWord (encode (.ldDT x)) = some (.ldDT x) :=
  decodeWord_packXFF_F x rfl fun _ => rfl

theorem decodeWord_encode_ldST (x : Reg) : decodeWord (encode (.ldST x)) = some (.ldST x) :=
  decodeWord_packXFF_F x rfl fun _ => rfl

end Sys2Proof

namespace Sys2Proof.Machine

/-! ## Frames of the timer writes -/

theorem changesOnly_DT_pc_of_update (s : State) (v : Byte) (p : Word) :
    ChangesOnly [.DT, .pc] s { s with DT := v, pc := p } := by
  intro c hc
  cases c with
  | DT | pc => simp at hc
  | V | mem => exact fun _ => rfl
  | inputs => exact ⟨rfl, rfl⟩
  | I | SP | stack | ST | FB | changed | mode => rfl

theorem changesOnly_ST_pc_of_update (s : State) (v : Byte) (p : Word) :
    ChangesOnly [.ST, .pc] s { s with ST := v, pc := p } := by
  intro c hc
  cases c with
  | ST | pc => simp at hc
  | V | mem => exact fun _ => rfl
  | inputs => exact ⟨rfl, rfl⟩
  | I | SP | stack | DT | FB | changed | mode => rfl

/-! ## The instructions -/

theorem execLdDT_spec (x : Reg) (s : State) :
    ∃ t, exec (.ldDT x) s = .next t ∧ t.DT = s.V[x] ∧ t.pc = s.pc + 2 ∧ ChangesOnly [.DT, .pc] s t :=
  ⟨{ s with DT := s.reg x, pc := s.pc + 2 }, rfl, rfl, rfl, changesOnly_DT_pc_of_update s (s.reg x) (s.pc + 2)⟩

theorem execLdST_spec (x : Reg) (s : State) :
    ∃ t, exec (.ldST x) s = .next t ∧ t.ST = s.V[x] ∧ t.pc = s.pc + 2 ∧ ChangesOnly [.ST, .pc] s t :=
  ⟨{ s with ST := s.reg x, pc := s.pc + 2 }, rfl, rfl, rfl, changesOnly_ST_pc_of_update s (s.reg x) (s.pc + 2)⟩

/-! ## The obligation -/

/-- Settles O47: Fx07 is one register write of DT, and Fx15 and Fx18 each update one timer and pc. -/
theorem timersAreReadAndSet : Obligations.TimersAreReadAndSet := fun x s =>
  ⟨decodeWord_encode_ldFromDT x, decodeWord_encode_ldDT x, decodeWord_encode_ldST x,
    exec_of_setReg (v := s.DT) rfl fun _ hx => hx, execLdDT_spec x s, execLdST_spec x s⟩

end Sys2Proof.Machine
end

section
/-! PROOFS. The opcode map as a whole (spec/30_encoding.md R81 to R87): its rows are disjoint, so the decoder and the encoder are inverse, and the words of no row are the listed ones. -/

namespace Sys2Proof

/-! ## The rows are disjoint (R85) -/

/-- A word that fits two rows has the bits that both rows fix. -/
theorem OpcodeRow.patterns_agree {r r' : OpcodeRow} {w : Word} (hfit : r.fits w = true) (hfit' : r'.fits w = true) :
    r.pattern &&& r'.mask = r'.pattern &&& r.mask := by
  rw [← beq_iff_eq.mp hfit, ← beq_iff_eq.mp hfit', BitVec.and_assoc, BitVec.and_assoc, BitVec.and_comm r.mask]

/-- Any two rows of the map differ in a bit that both of them fix. -/
theorem opcodeMap_patterns_differ :
    opcodeMap.Pairwise fun r r' => r.pattern &&& r'.mask ≠ r'.pattern &&& r.mask := by decide

/-- No word fits two rows. -/
theorem opcodeMap_row_unique {r r' : OpcodeRow} {w : Word} (hr : r ∈ opcodeMap) (hr' : r' ∈ opcodeMap)
    (hfit : r.fits w = true) (hfit' : r'.fits w = true) : r = r' := by
  by_contra hne
  have : Std.Symm fun r r' : OpcodeRow => r.pattern &&& r'.mask ≠ r'.pattern &&& r.mask := ⟨fun _ _ => Ne.symm⟩
  exact opcodeMap_patterns_differ.forall hr hr' hne (OpcodeRow.patterns_agree hfit hfit')

/-- The decoder finds any row that the word fits. -/
theorem decodeWord_of_fits {r : OpcodeRow} {w : Word} (hr : r ∈ opcodeMap) (hfit : r.fits w = true) :
    decodeWord w = some (r.build w) := by
  cases hd : decodeWord w with
  | none => simp [decodeWord_eq_none.mp hd r hr] at hfit
  | some i =>
    obtain ⟨r', hr', hfit', hbuild'⟩ := decodeWord_row hd
    rw [← hbuild', opcodeMap_row_unique hr' hr hfit' hfit]

/-! ## Decoding an encoded instruction (R82, R85) -/

/-- A row of the map has the word of every instruction and builds the instruction back. -/
theorem encodedForm (i : Instr) : Laws.EncodedForm.Statement i := by
  cases i with
  | cls => exact Laws.EncodedForm.cls
  | ret => exact Laws.EncodedForm.ret
  | jp nnn => exact Laws.EncodedForm.jp nnn
  | call nnn => exact Laws.EncodedForm.call nnn
  | seImm x kk => exact Laws.EncodedForm.seImm x kk
  | sneImm x kk => exact Laws.EncodedForm.sneImm x kk
  | seReg x y => exact Laws.EncodedForm.seReg x y
  | ldImm x kk => exact Laws.EncodedForm.ldImm x kk
  | addImm x kk => exact Laws.EncodedForm.addImm x kk
  | ldReg x y => exact Laws.EncodedForm.ldReg x y
  | orReg x y => exact Laws.EncodedForm.orReg x y
  | andReg x y => exact Laws.EncodedForm.andReg x y
  | xorReg x y => exact Laws.EncodedForm.xorReg x y
  | addReg x y => exact Laws.EncodedForm.addReg x y
  | subReg x y => exact Laws.EncodedForm.subReg x y
  | shr x y => exact Laws.EncodedForm.shr x y
  | subnReg x y => exact Laws.EncodedForm.subnReg x y
  | shl x y => exact Laws.EncodedForm.shl x y
  | sneReg x y => exact Laws.EncodedForm.sneReg x y
  | ldI nnn => exact Laws.EncodedForm.ldI nnn
  | jpV0 nnn => exact Laws.EncodedForm.jpV0 nnn
  | rnd x kk => exact Laws.EncodedForm.rnd x kk
  | drw x y n => exact Laws.EncodedForm.drw x y n
  | skp x => exact Laws.EncodedForm.skp x
  | sknp x => exact Laws.EncodedForm.sknp x
  | ldFromDT x => exact Laws.EncodedForm.ldFromDT x
  | ldKey x => exact Laws.EncodedForm.ldKey x
  | ldDT x => exact Laws.EncodedForm.ldDT x
  | ldST x => exact Laws.EncodedForm.ldST x
  | addI x => exact Laws.EncodedForm.addI x
  | ldF x => exact Laws.EncodedForm.ldF x
  | ldB x => exact Laws.EncodedForm.ldB x
  | storeRegs x => exact Laws.EncodedForm.storeRegs x
  | loadRegs x => exact Laws.EncodedForm.loadRegs x

@[simp] theorem decodeWord_encode (i : Instr) : decodeWord (encode i) = some i := by
  obtain ⟨-, r, hr, hfit, hbuild⟩ := encodedForm i
  rw [decodeWord_of_fits hr hfit, hbuild]

/-- Settles O1: the row that has the word of `i` builds `i`, and no other row has that word. -/
theorem decodeInvertsEncode : Obligations.DecodeInvertsEncode := decodeWord_encode

/-- Settles O3: two rows that a word fits are the same row. -/
theorem opcodeRowsAreDisjoint : Obligations.OpcodeRowsAreDisjoint := fun _ _ _ hr hr' hfit hfit' =>
  congrArg OpcodeRow.mnemonic (opcodeMap_row_unique hr hr' hfit hfit')

/-! ## Encoding a decoded word (R81, R82, R85) -/

theorem packNNN_fields (w : Word) : packNNN (opNibble w) (fieldNNN w) = w :=
  (BitVec.extractLsb'_append_extractLsb'_eq_extractLsb' rfl).trans BitVec.extractLsb'_eq_self

theorem packXKK_fields (w : Word) : packXKK (opNibble w) (fieldX w) (fieldKK w) = w := by
  have hnnn : nibble (fieldX w) ++ fieldKK w = fieldNNN w :=
    BitVec.extractLsb'_append_extractLsb'_eq_extractLsb' rfl
  rw [packXKK, BitVec.append_assoc, hnnn]
  exact packNNN_fields w

theorem packXYN_fields (w : Word) : packXYN (opNibble w) (fieldX w) (fieldY w) (nibble (fieldN w)) = w := by
  have hkk : nibble (fieldY w) ++ nibble (fieldN w) = fieldKK w :=
    BitVec.extractLsb'_append_extractLsb'_eq_extractLsb' rfl
  rw [packXYN, BitVec.append_assoc, hkk]
  exact packXKK_fields w

/-- Bits under an all-ones stretch of the mask are those of the masked word. -/
theorem extractLsb'_of_and_eq {w mask fixed : Word} (start len : Nat)
    (hmask : mask.extractLsb' start len = BitVec.allOnes len) (h : w &&& mask = fixed) :
    w.extractLsb' start len = fixed.extractLsb' start len := by
  rw [← h, BitVec.extractLsb'_and, hmask, BitVec.and_allOnes]

theorem opNibble_of_fixed {op : BitVec 4} {w : Word} (h : w &&& 0xF000#16 = op ++ 0#12) : opNibble w = op :=
  (extractLsb'_of_and_eq 12 4 rfl h).trans BitVec.extractLsb'_append_eq_left

theorem packNNN_of_fixed {op : BitVec 4} {w : Word} (h : w &&& 0xF000#16 = op ++ 0#12) :
    packNNN op (fieldNNN w) = w := by
  rw [← opNibble_of_fixed h, packNNN_fields]

theorem packXKK_of_fixed {op : BitVec 4} {w : Word} (h : w &&& 0xF000#16 = op ++ 0#12) :
    packXKK op (fieldX w) (fieldKK w) = w := by
  rw [← opNibble_of_fixed h, packXKK_fields]

theorem packXYN_of_fixed {op : BitVec 4} {w : Word} (h : w &&& 0xF000#16 = op ++ 0#12) :
    packXYN op (fieldX w) (fieldY w) (nibble (fieldN w)) = w := by
  rw [← opNibble_of_fixed h, packXYN_fields]

theorem packXYF_of_fixed {op n : BitVec 4} {w : Word} (h : w &&& 0xF00F#16 = packXYN op 0 0 n) :
    packXYN op (fieldX w) (fieldY w) n = w := by
  have hop : opNibble w = op := (extractLsb'_of_and_eq 12 4 rfl h).trans (opNibble_packXYN op 0 0 n)
  have hn : nibble (fieldN w) = n := (extractLsb'_of_and_eq 0 4 rfl h).trans BitVec.extractLsb'_append_eq_right
  rw [← hop, ← hn, packXYN_fields]

theorem packXFF_of_fixed {op : BitVec 4} {f : Byte} {w : Word} (h : w &&& 0xF0FF#16 = packXFF op 0 f) :
    packXFF op (fieldX w) f = w := by
  have hop : opNibble w = op := (extractLsb'_of_and_eq 12 4 rfl h).trans (opNibble_packXFF op 0 f)
  have hf : fieldKK w = f := (extractLsb'_of_and_eq 0 8 rfl h).trans BitVec.extractLsb'_append_eq_right
  rw [← hop, ← hf]
  exact packXKK_fields w

theorem eq_of_fixed {fixed w : Word} (h : w &&& 0xFFFF#16 = fixed) : fixed = w := by
  rw [← h]; exact BitVec.and_allOnes

theorem encode_build_rowsFlow (w : Word) : ∀ r ∈ rowsFlow, r.fits w = true → encode (r.build w) = w := by
  simp only [rowsFlow, List.forall_mem_cons, OpcodeRow.fits, beq_iff_eq, encode]
  exact ⟨eq_of_fixed, eq_of_fixed, packNNN_of_fixed (op := 1), packNNN_of_fixed (op := 2), packXKK_of_fixed (op := 3),
    packXKK_of_fixed (op := 4), packXYF_of_fixed (op := 5) (n := 0), packXKK_of_fixed (op := 6),
    packXKK_of_fixed (op := 7), List.forall_mem_nil _⟩

theorem encode_build_rowsRegister (w : Word) : ∀ r ∈ rowsRegister, r.fits w = true → encode (r.build w) = w := by
  simp only [rowsRegister, List.forall_mem_cons, OpcodeRow.fits, beq_iff_eq, encode]
  exact ⟨packXYF_of_fixed (op := 8) (n := 0), packXYF_of_fixed (op := 8) (n := 1), packXYF_of_fixed (op := 8) (n := 2),
    packXYF_of_fixed (op := 8) (n := 3), packXYF_of_fixed (op := 8) (n := 4), packXYF_of_fixed (op := 8) (n := 5),
    packXYF_of_fixed (op := 8) (n := 6), packXYF_of_fixed (op := 8) (n := 7), packXYF_of_fixed (op := 8) (n := 0xE),
    packXYF_of_fixed (op := 9) (n := 0), List.forall_mem_nil _⟩

theorem encode_build_rowsAddress (w : Word) : ∀ r ∈ rowsAddress, r.fits w = true → encode (r.build w) = w := by
  simp only [rowsAddress, List.forall_mem_cons, OpcodeRow.fits, beq_iff_eq, encode]
  exact ⟨packNNN_of_fixed (op := 0xA), packNNN_of_fixed (op := 0xB), packXKK_of_fixed (op := 0xC),
    packXYN_of_fixed (op := 0xD), packXFF_of_fixed (op := 0xE) (f := 0x9E), packXFF_of_fixed (op := 0xE) (f := 0xA1),
    List.forall_mem_nil _⟩

theorem encode_build_rowsFunction (w : Word) : ∀ r ∈ rowsFunction, r.fits w = true → encode (r.build w) = w := by
  simp only [rowsFunction, List.forall_mem_cons, OpcodeRow.fits, beq_iff_eq, encode]
  exact ⟨packXFF_of_fixed (op := 0xF) (f := 0x07), packXFF_of_fixed (op := 0xF) (f := 0x0A),
    packXFF_of_fixed (op := 0xF) (f := 0x15), packXFF_of_fixed (op := 0xF) (f := 0x18),
    packXFF_of_fixed (op := 0xF) (f := 0x1E), packXFF_of_fixed (op := 0xF) (f := 0x29),
    packXFF_of_fixed (op := 0xF) (f := 0x33), packXFF_of_fixed (op := 0xF) (f := 0x55),
    packXFF_of_fixed (op := 0xF) (f := 0x65), List.forall_mem_nil _⟩

/-- Settles O2: what a row builds from a word that fits it has that word. -/
theorem encodeInvertsDecode : Obligations.EncodeInvertsDecode := by
  intro w i h
  obtain ⟨r, hr, hfit, rfl⟩ := decodeWord_row h
  simp only [opcodeMap, List.mem_append] at hr
  rcases hr with ((hr | hr) | hr) | hr
  · exact encode_build_rowsFlow w r hr hfit
  · exact encode_build_rowsRegister w r hr hfit
  · exact encode_build_rowsAddress w r hr hfit
  · exact encode_build_rowsFunction w r hr hfit

/-- Settles O5, by running the decoder on the 16 words. -/
theorem specWordsDecode : Obligations.SpecWordsDecode := by
  unfold Obligations.SpecWordsDecode
  decide

/-! ## The unknown words (R87) -/

theorem opNibble_toNat (w : Word) : (opNibble w).toNat = w.toNat / 4096 := by
  rw [opNibble, BitVec.extractLsb'_toNat, Nat.shiftRight_eq_div_pow]
  omega

theorem fieldKK_toNat (w : Word) : (fieldKK w).toNat = w.toNat % 256 := BitVec.extractLsb'_toNat 0 8 w

theorem fieldN_val (w : Word) : (fieldN w).val = w.toNat % 16 := BitVec.extractLsb'_toNat 0 4 w

theorem opNibble_eq_iff (w v : Word) : opNibble w = opNibble v ↔ w.toNat / 4096 = v.toNat / 4096 := by
  rw [← BitVec.toNat_inj, opNibble_toNat, opNibble_toNat]

/-- A word has the fixed bits `p` of a row of format NNN, XKK or XYN where it has its opcode nibble. -/
theorem and_F000_eq_iff {w p : Word} (hp : p &&& 0xF000#16 = p) :
    w &&& 0xF000#16 = p ↔ w.toNat / 4096 = p.toNat / 4096 := by
  rw [← opNibble_eq_iff]
  constructor
  · exact extractLsb'_of_and_eq 12 4 rfl
  · intro h
    rw [← hp, ← packNNN_fields w, ← packNNN_fields p, packNNN_and_mask, packNNN_and_mask, h]

/-- A word has the fixed bits `p` of a row of format XYF where it has its opcode nibble and its low nibble. -/
theorem and_F00F_eq_iff {w p : Word} (hp : p &&& 0xF00F#16 = p) :
    w &&& 0xF00F#16 = p ↔ w.toNat / 4096 = p.toNat / 4096 ∧ w.toNat % 16 = p.toNat % 16 := by
  rw [← opNibble_eq_iff, ← fieldN_val, ← fieldN_val, Fin.val_inj]
  constructor
  · intro h
    exact ⟨extractLsb'_of_and_eq 12 4 rfl h, congrArg BitVec.toFin (extractLsb'_of_and_eq 0 4 rfl h)⟩
  · rintro ⟨hop, hn⟩
    rw [← hp, ← packXYN_fields w, ← packXYN_fields p, packXYN_and_mask, packXYN_and_mask, hop, hn]

/-- A word has the fixed bits `p` of a row of format XFF where it has its opcode nibble and its low byte. -/
theorem and_F0FF_eq_iff {w p : Word} (hp : p &&& 0xF0FF#16 = p) :
    w &&& 0xF0FF#16 = p ↔ w.toNat / 4096 = p.toNat / 4096 ∧ w.toNat % 256 = p.toNat % 256 := by
  rw [← opNibble_eq_iff, ← fieldKK_toNat, ← fieldKK_toNat, BitVec.toNat_inj]
  constructor
  · intro h
    exact ⟨extractLsb'_of_and_eq 12 4 rfl h, extractLsb'_of_and_eq 0 8 rfl h⟩
  · rintro ⟨hop, hf⟩
    have hmask (v : Word) : v &&& 0xF0FF#16 = opNibble v ++ 0#4 ++ fieldKK v := by
      conv_lhs => rw [← packXKK_fields v]
      exact packXFF_and_mask (opNibble v) (fieldX v) (fieldKK v)
    rw [← hp, hmask w, hmask p, hop, hf]

theorem and_FFFF_eq_iff {w p : Word} : w &&& 0xFFFF#16 = p ↔ w.toNat = p.toNat := by
  rw [BitVec.toNat_inj, show w &&& 0xFFFF#16 = w from BitVec.and_allOnes]

/-- Settles O4: the rows in terms of the word's value, for each of the 16 opcode nibbles. -/
theorem unknownWordsAreTheListedOnes : Obligations.UnknownWordsAreTheListedOnes := by
  intro w
  simp only [decodeWord_eq_none, opcodeMap, rowsFlow, rowsRegister, rowsAddress, rowsFunction, List.forall_mem_append,
    List.forall_mem_cons, OpcodeRow.fits, beq_eq_false_iff_ne, ne_eq, and_F000_eq_iff, and_F00F_eq_iff, and_F0FF_eq_iff,
    and_FFFF_eq_iff, BitVec.ofNat_eq_ofNat, BitVec.reduceAnd, BitVec.reduceToNat, Nat.reduceDiv, Nat.reduceMod]
  have hop : w.toNat / 4096 < 16 := by omega
  have hn : w.toNat % 16 < 16 := by omega
  have hflow : w.toNat / 4096 ≠ 0 → w.toNat ≠ 224 ∧ w.toNat ≠ 238 := by omega
  generalize w.toNat % 16 = n at *
  generalize w.toNat / 4096 = op at *
  interval_cases op <;> simp_all
  -- What is left is the opcode nibble 8, where the low nibbles of no row are listed one by one.
  omega

/-! ## Two bytes as a word (R60, R80) -/

theorem wordOfBytes_toNat (hi lo : Byte) : (wordOfBytes hi lo).toNat = 256 * hi.toNat + lo.toNat := by
  rw [wordOfBytes, BitVec.toNat_append, ← Nat.shiftLeft_add_eq_or_of_lt lo.isLt, Nat.shiftLeft_eq, Nat.mul_comm]

theorem decode_cons_cons_eq_ok (hi lo : Byte) (rest : List Byte) (i : Instr) :
    decode (hi :: lo :: rest) = .ok (i, rest) ↔ decodeWord (wordOfBytes hi lo) = some i := by
  rw [decode]
  cases decodeWord (wordOfBytes hi lo) with
  | none => simp
  | some j => simp

/-- Settles O6: the fetch and the decoder make the same word of two bytes. -/
theorem fetchReadsTwoBytesBigEndian : Obligations.FetchReadsTwoBytesBigEndian := fun _ i rest =>
  ⟨wordOfBytes_toNat _ _, (decode_cons_cons_eq_ok _ _ rest i).symm⟩

end Sys2Proof
end

section
/-! PROOFS. What every instruction can do, said once: it faults, or it runs its body and takes its PC effect (spec/30_encoding.md R91 to R96); and the rules of the whole machine that follow for single instructions. -/

namespace Sys2Proof

open Machine

/-! ## An instruction as a fault cause, a body and a PC effect -/

/-- The cause with which the instruction faults, none where it completes (spec/60_exceptions.md R213). -/
def Instr.faultCause : Instr → State → Option FaultCause
  | .call _, s => if s.SP = 15 then some .stackOverflow else none
  | .ret, s => if s.SP = 0 then some .stackUnderflow else none
  | .drw _ _ n, s => if rangeFits s.I n.val then none else some .memoryOutOfBounds
  | .ldB _, s => if rangeFits s.I 3 then none else some .memoryOutOfBounds
  | .storeRegs x, s | .loadRegs x, s => if rangeFits s.I (x.val + 1) then none else some .memoryOutOfBounds
  | .skp x, s | .sknp x, s => if keyOf (s.reg x) = none then some .keyOutOfRange else none
  | _, _ => none

/-- The PC effect of an instruction that completes (R94). -/
def Instr.pcEffect : Instr → State → PcEffect
  | .jp nnn, _ | .call nnn, _ => .jump (zext16 nnn)
  | .jpV0 nnn, s => .jump (zext16 nnn + zext16 (s.reg 0))
  | .ret, s => .jump s.stack[s.SP]
  | .seImm x kk, s => skipIf (s.reg x == kk)
  | .sneImm x kk, s => skipIf (s.reg x != kk)
  | .seReg x y, s => skipIf (s.reg x == s.reg y)
  | .sneReg x y, s => skipIf (s.reg x != s.reg y)
  | .skp x, s => skipIf ((keyOf (s.reg x)).any fun k => s.turn.keys[k])
  | .sknp x, s => skipIf ((keyOf (s.reg x)).any fun k => !s.turn.keys[k])
  | .ldKey x, s => if (pickKey s.turn.keys s.turn.pick).isSome then .next else .wait x
  | _, _ => .next

/-- What an instruction that completes does before its PC effect (R92). -/
def Instr.body : Instr → State → State
  | .cls, s => { s with FB := blankFramebuffer, changed := true }
  | .ret, s => { s with SP := s.SP - 1 }
  | .call _, s => { s with SP := s.SP + 1, stack := s.stack.set (s.SP + 1 : Fin 16) (s.pc + 2) }
  | .ldImm x kk, s => s.setReg x kk
  | .addImm x kk, s => s.setReg x (s.reg x + kk)
  | .ldReg x y, s => s.setReg x (s.reg y)
  | .orReg x y, s => s.setReg x (s.reg x ||| s.reg y)
  | .andReg x y, s => s.setReg x (s.reg x &&& s.reg y)
  | .xorReg x y, s => s.setReg x (s.reg x ^^^ s.reg y)
  | .addReg x y, s => s.setFlagAndReg x (carryFlag (s.reg x) (s.reg y)) (s.reg x + s.reg y)
  | .subReg x y, s => s.setFlagAndReg x (greaterFlag (s.reg x) (s.reg y)) (s.reg x - s.reg y)
  | .shr x _, s => s.setFlagAndReg x (lowBitFlag (s.reg x)) (s.reg x >>> 1)
  | .subnReg x y, s => s.setFlagAndReg x (greaterFlag (s.reg y) (s.reg x)) (s.reg y - s.reg x)
  | .shl x _, s => s.setFlagAndReg x (highBitFlag (s.reg x)) (s.reg x <<< 1)
  | .ldI nnn, s => { s with I := zext16 nnn }
  | .rnd x kk, s => s.setReg x (s.turn.rnd &&& kk)
  | .drw x y n, s =>
    let drawn := drawSprite s.FB (s.reg x) (s.reg y) (Memory.readBytes s.mem s.I.toNat n.val)
    State.setFlag { s with FB := drawn.1, changed := true } (collisionFlag drawn.2)
  | .ldFromDT x, s => s.setReg x s.DT
  | .ldKey x, s => { s with V := (s.takeKey x).V }
  | .ldDT x, s => { s with DT := s.reg x }
  | .ldST x, s => { s with ST := s.reg x }
  | .addI x, s => { s with I := s.I + zext16 (s.reg x) }
  | .ldF x, s => { s with I := glyphAddress (s.reg x) }
  | .ldB x, s => { s with mem := Memory.writeBytes s.mem s.I.toNat (decimalDigits (s.reg x)) }
  | .storeRegs x, s => { s with mem := Memory.writeBytes s.mem s.I.toNat (s.V.toList.take (x.val + 1)) }
  | .loadRegs x, s => { s with V := loadInto s.mem s.I.toNat (x.val + 1) s.V }
  | _, s => s

theorem takeKey_eq (s : State) (x : Reg) : s.takeKey x = { s with V := (s.takeKey x).V } := by
  unfold State.takeKey
  split <;> rfl

theorem exec_of_faultCause_some {i : Instr} {s : State} {c : FaultCause} (h : i.faultCause s = some c) :
    exec i s = raise s c := by
  cases i with
  | call | ret =>
    simp only [Instr.faultCause, Option.ite_none_right_eq_some, Option.some.injEq] at h
    obtain ⟨hSP, rfl⟩ := h
    exact if_pos hSP
  | drw | ldB | storeRegs | loadRegs =>
    simp only [Instr.faultCause, Option.ite_none_left_eq_some, Option.some.injEq] at h
    obtain ⟨hrange, rfl⟩ := h
    exact if_neg hrange
  | skp | sknp =>
    simp only [Instr.faultCause, Option.ite_none_right_eq_some, Option.some.injEq] at h
    obtain ⟨hkey, rfl⟩ := h
    simp only [exec, execSkp, execSknp, hkey]
  | _ => cases h

theorem exec_of_faultCause_none {i : Instr} {s : State} (h : i.faultCause s = none) :
    exec i s = complete (i.body s) (i.pcEffect s) := by
  cases i with
  | call | ret =>
    simp only [Instr.faultCause, ite_eq_right_iff, reduceCtorEq, imp_false] at h
    exact if_neg h
  | drw | ldB | storeRegs | loadRegs =>
    simp only [Instr.faultCause, ite_eq_left_iff, reduceCtorEq, imp_false, not_not] at h
    exact if_pos h
  | skp | sknp =>
    simp only [Instr.faultCause, ite_eq_right_iff, reduceCtorEq, imp_false] at h
    obtain ⟨k, hk⟩ := Option.ne_none_iff_exists'.mp h
    simp only [exec, execSkp, execSknp, Instr.body, Instr.pcEffect, hk, Option.any_some]
  | ldKey x => exact congrArg (complete · (Instr.pcEffect (.ldKey x) s)) (takeKey_eq s x)
  | _ => rfl

/-- All that an instruction can do. -/
theorem exec_cases {i : Instr} {s t : State} (h : exec i s = .next t) :
    (∃ c, i.faultCause s = some c ∧ t = s.halt c (some s.opcode)) ∨
    (i.faultCause s = none ∧ t = (i.body s).applyEffect (i.pcEffect s)) := by
  cases hc : i.faultCause s with
  | some c => exact .inl ⟨c, rfl, (raise_eq_next s t c).mp (exec_of_faultCause_some hc ▸ h)⟩
  | none => exact .inr ⟨rfl, (complete_eq_next _ t _).mp (exec_of_faultCause_none hc ▸ h)⟩

/-- Every instruction answers a next state. -/
theorem exec_total (i : Instr) (s : State) : ∃ t, exec i s = .next t := by
  cases hc : i.faultCause s with
  | some c => exact ⟨_, exec_of_faultCause_some hc⟩
  | none => exact ⟨_, exec_of_faultCause_none hc⟩

/-! ## The causes of faults (spec/60_exceptions.md R213) -/

theorem rangeFits_eq_false_iff (base : Word) (count : Nat) :
    rangeFits base count = false ↔ rangeOverruns base count := by
  rw [← Bool.not_eq_true, rangeFits_iff, rangeOverruns]
  omega

theorem faultCause_eq_some_iff (i : Instr) (s : State) (c : FaultCause) :
    i.faultCause s = some c ↔ FaultCondition i s c := by
  cases i with
  | ret => cases c <;> simp [Instr.faultCause, FaultCondition]
  | call =>
    have hSP : s.SP = 15 ↔ s.SP.val = 15 := Fin.ext_iff
    cases c <;> simp [Instr.faultCause, FaultCondition, hSP]
  | drw | ldB | storeRegs | loadRegs =>
    cases c <;> simp [Instr.faultCause, FaultCondition, rangeFits_eq_false_iff]
  | skp | sknp => cases c <;> simp [Instr.faultCause, FaultCondition, keyOf_eq_none, State.reg]
  | _ => cases c <;> simp [Instr.faultCause, FaultCondition]

theorem haltsWith_halt (c : FaultCause) (o : Option Word) (s : State) : HaltsWith c o s (s.halt c o) := by
  refine ⟨rfl, rfl, ?_⟩
  intro component hc
  cases component with
  | mode | changed | inputs => simp at hc
  | V | mem => exact fun _ => rfl
  | I | pc | SP | stack | DT | ST | FB => rfl

/-- An instruction whose fault condition holds takes the fault. -/
theorem exec_faults {i : Instr} {s : State} {c : FaultCause} (h : FaultCondition i s c) :
    ∃ t, exec i s = .next t ∧ InstructionFaults c s t :=
  ⟨s.halt c (some s.opcode), exec_of_faultCause_some ((faultCause_eq_some_iff i s c).mpr h),
    haltsWith_halt c (some s.opcode) s, rfl, rfl⟩

/-! ## What the bodies leave unchanged -/

/-- The components that an instruction writes beside pc and mode. -/
def Instr.writes : Instr → List Component
  | .cls => [.FB, .changed]
  | .drw _ _ _ => [.V, .FB, .changed]
  | .ret => [.SP]
  | .call _ => [.SP, .stack]
  | .ldI _ | .addI _ | .ldF _ => [.I]
  | .ldDT _ => [.DT]
  | .ldST _ => [.ST]
  | .ldB _ | .storeRegs _ => [.mem]
  | .jp _ | .jpV0 _ | .seImm _ _ | .sneImm _ _ | .seReg _ _ | .sneReg _ _ | .skp _ | .sknp _ => []
  | _ => [.V]

@[simp] theorem body_pc (i : Instr) (s : State) : (i.body s).pc = s.pc := by cases i <;> rfl

@[simp] theorem body_mode (i : Instr) (s : State) : (i.body s).mode = s.mode := by cases i <;> rfl

theorem body_changesOnly (i : Instr) (s : State) : ChangesOnly i.writes s (i.body s) := by
  intro c hc
  cases c with
  | V =>
    intro r
    cases i with
    | jp | jpV0 | seImm | sneImm | seReg | sneReg | skp | sknp | cls | ret | call | ldI | addI | ldF | ldDT | ldST | ldB
    | storeRegs => rfl
    | _ => simp [Instr.writes] at hc
  | I =>
    cases i with
    | ldI | addI | ldF => simp [Instr.writes] at hc
    | _ => rfl
  | SP =>
    cases i with
    | ret | call => simp [Instr.writes] at hc
    | _ => rfl
  | stack =>
    cases i with
    | call => simp [Instr.writes] at hc
    | _ => rfl
  | DT =>
    cases i with
    | ldDT => simp [Instr.writes] at hc
    | _ => rfl
  | ST =>
    cases i with
    | ldST => simp [Instr.writes] at hc
    | _ => rfl
  | FB | changed =>
    cases i with
    | cls | drw => simp [Instr.writes] at hc
    | _ => rfl
  | mem =>
    intro a
    cases i with
    | ldB | storeRegs => simp [Instr.writes] at hc
    | _ => rfl
  | pc => exact body_pc i s
  | mode => exact body_mode i s
  | inputs => exact ⟨by cases i <;> rfl, by cases i <;> rfl⟩

/-- An instruction changes nothing but what it writes and pc and mode, and where it faults Changed. -/
theorem mem_writes_of_exec {i : Instr} {s t : State} {c : Component} (h : exec i s = .next t)
    (hchanged : ¬ Unchanged s t c) : c ∈ i.writes ∨ c ∈ [.pc, .mode, .changed] := by
  by_contra hno
  rw [not_or] at hno
  obtain ⟨hwrites, hrest⟩ := hno
  refine hchanged ?_
  rcases exec_cases h with ⟨cause, -, rfl⟩ | ⟨-, rfl⟩
  · cases c with
    | pc | mode | changed => simp at hrest
    | V | mem => exact fun _ => rfl
    | inputs => exact ⟨rfl, rfl⟩
    | I | SP | stack | DT | ST | FB => rfl
  · have hbody : Unchanged s (i.body s) c := body_changesOnly i s c hwrites
    cases c with
    | pc | mode | changed => simp at hrest
    | V | mem | inputs | I | SP | stack | DT | ST | FB => simpa [Unchanged] using hbody

/-! ## Instructions that complete -/

/-- An instruction that completes without a wait changes nothing but what it writes and pc. -/
theorem completed_changesOnly {i : Instr} {s : State} (hwait : ∀ x, i.pcEffect s ≠ .wait x) :
    ChangesOnly (i.writes ++ [.pc]) s ((i.body s).applyEffect (i.pcEffect s)) := by
  intro c hc
  rw [List.mem_append, not_or] at hc
  obtain ⟨hwrites, hpc⟩ := hc
  have hbody : Unchanged s (i.body s) c := body_changesOnly i s c hwrites
  cases c with
  | pc => simp at hpc
  | mode =>
    cases heffect : i.pcEffect s with
    | wait x => exact absurd heffect (hwait x)
    | next | skip | jump => exact hbody
  | V | I | SP | stack | DT | ST | FB | changed | mem | inputs => simpa [Unchanged] using hbody

/-- The state that an instruction with the PC effect Next leaves. -/
theorem exec_next {i : Instr} {s : State} (hcompletes : i.faultCause s = none) (hnext : i.pcEffect s = .next) :
    ∃ t, exec i s = .next t ∧ t = (i.body s).applyEffect .next ∧ t.pc = s.pc + 2 ∧
      ChangesOnly (i.writes ++ [.pc]) s t := by
  refine ⟨_, exec_of_faultCause_none hcompletes, by rw [hnext], by simp [hnext], completed_changesOnly ?_⟩
  simp [hnext]

theorem registersKept_set {x : Reg} {v : Byte} {s t : State} (h : t.V = s.V.set x v) : RegistersKept [x] s t := by
  intro r hr
  rw [h, getElem_set_reg, if_neg (List.ne_of_not_mem_cons hr)]

/-! ## The writers of each component (spec/10_state.md sections 4 to 6) -/

theorem mem_writes_I (i : Instr) : .I ∈ i.writes ↔ (∃ nnn, i = .ldI nnn) ∨ ∃ x, i = .addI x ∨ i = .ldF x := by
  cases i <;> simp [Instr.writes]

theorem mem_writes_SP (i : Instr) : .SP ∈ i.writes ↔ i = .ret ∨ ∃ nnn, i = .call nnn := by
  cases i <;> simp [Instr.writes]

theorem mem_writes_stack (i : Instr) : .stack ∈ i.writes ↔ ∃ nnn, i = .call nnn := by
  cases i <;> simp [Instr.writes]

theorem mem_writes_mem (i : Instr) : .mem ∈ i.writes ↔ ∃ x, i = .ldB x ∨ i = .storeRegs x := by
  cases i <;> simp [Instr.writes]

theorem mem_writes_FB (i : Instr) : .FB ∈ i.writes ↔ i = .cls ∨ ∃ x y n, i = .drw x y n := by
  cases i <;> simp [Instr.writes]

theorem mem_writes_changed (i : Instr) : .changed ∈ i.writes ↔ i = .cls ∨ ∃ x y n, i = .drw x y n := by
  cases i <;> simp [Instr.writes]

theorem mem_writes_DT (i : Instr) : .DT ∈ i.writes ↔ ∃ x, i = .ldDT x := by
  cases i <;> simp [Instr.writes]

theorem mem_writes_ST (i : Instr) : .ST ∈ i.writes ↔ ∃ x, i = .ldST x := by
  cases i <;> simp [Instr.writes]

/-- Changed is set by the instructions that write it alone. -/
theorem changed_mem_writes_of_exec {i : Instr} {s t : State} (h : exec i s = .next t) (ht : t.changed = true)
    (hs : s.changed ≠ true) : .changed ∈ i.writes := by
  by_contra hno
  rcases exec_cases h with ⟨cause, -, rfl⟩ | ⟨-, rfl⟩
  · cases ht
  · have hbody : (i.body s).changed = s.changed := body_changesOnly i s .changed hno
    rw [State.applyEffect_changed, hbody] at ht
    exact hs ht

/-- Settles O16: what a component's writers are is read off the list of what each instruction writes. -/
theorem storageHasItsWriters : Obligations.StorageHasItsWriters := by
  intro i s t h
  have written {c : Component} (hc : ¬ Unchanged s t c) (hother : c ∉ [.pc, .mode, .changed]) : c ∈ i.writes :=
    (mem_writes_of_exec h hc).resolve_right hother
  refine ⟨fun hI => ?_, fun hSP => ?_, fun hstack => ?_, fun ⟨a, ha⟩ => ?_⟩
  · exact (mem_writes_I i).mp (written hI (by decide))
  · exact (mem_writes_SP i).mp (written hSP (by decide))
  · exact (mem_writes_stack i).mp (written hstack (by decide))
  · exact (mem_writes_mem i).mp (written (fun hkept => ha (hkept a)) (by decide))

/-- Settles O17: as O16, and a fault clears Changed. -/
theorem displayAndTimersHaveTheirWriters : Obligations.DisplayAndTimersHaveTheirWriters := by
  intro i s t h
  have written {c : Component} (hc : ¬ Unchanged s t c) (hother : c ∉ [.pc, .mode, .changed]) : c ∈ i.writes :=
    (mem_writes_of_exec h hc).resolve_right hother
  refine ⟨fun hFB => ?_, fun ht => ?_, fun hDT => ?_, fun hST => ?_⟩
  · exact (mem_writes_FB i).mp (written hFB (by decide))
  · exact or_iff_not_imp_left.mpr fun hs => (mem_writes_changed i).mp (changed_mem_writes_of_exec h ht hs)
  · exact (mem_writes_DT i).mp (written hDT (by decide))
  · exact (mem_writes_ST i).mp (written hST (by decide))

/-! ## The PC effects (spec/30_encoding.md R94) -/

theorem skipIf_eq_skip (b : Bool) : skipIf b = .skip ↔ b = true := by cases b <;> simp [skipIf]

theorem pcEffect_eq_jump_iff (i : Instr) (s : State) (target : Word) :
    i.pcEffect s = .jump target ↔ JumpsTo i s target := by
  have hskip (b : Bool) : skipIf b ≠ .jump target := by cases b <;> simp [skipIf]
  cases i with
  | ldKey => simp only [Instr.pcEffect, JumpsTo]; split <;> simp
  | jp | call | jpV0 | ret => simp [Instr.pcEffect, JumpsTo, State.reg, eq_comm]
  | _ => simp [Instr.pcEffect, JumpsTo, hskip]

theorem keyOf_any_eq_true (v : Byte) (p : Fin 16 → Bool) :
    (keyOf v).any p = true ↔ ∃ k : Fin 16, k.val = v.toNat ∧ p k = true := by
  simp only [Option.any_eq_true, ← keyOf_eq_some]

theorem pcEffect_eq_skip_iff (i : Instr) (s : State) : i.pcEffect s = .skip ↔ SkipHolds i s := by
  cases i with
  | ldKey => simp only [Instr.pcEffect, SkipHolds]; split <;> simp
  | seImm x kk =>
    simpa [Instr.pcEffect, SkipHolds, skipIf_eq_skip, State.reg] using eq_comm (a := s.V[x])
  | skp | sknp => simp [Instr.pcEffect, SkipHolds, skipIf_eq_skip, keyOf_any_eq_true, State.reg]
  | _ => simp [Instr.pcEffect, SkipHolds, skipIf_eq_skip, State.reg]

/-- Settles O18: an instruction that faults halts; one that completes takes its PC effect on the old pc and mode. -/
theorem pcEffectsAreTheListedOnes : Obligations.PcEffectsAreTheListedOnes := by
  intro i s t hrunning h
  simp only [← pcEffect_eq_jump_iff, ← pcEffect_eq_skip_iff]
  rcases exec_cases h with ⟨cause, -, rfl⟩ | ⟨-, rfl⟩
  · simp
  · cases i.pcEffect s <;> simp [hrunning]

/-! ## The inputs of a step (spec/60_exceptions.md R227, R228) -/

theorem faultCause_withInputs (i : Instr) (s : State) (turns : List Turn) (n : Nat) :
    i.faultCause (s.withInputs turns n) = i.faultCause s := by cases i <;> rfl

theorem applyEffect_withInputs (s : State) (e : PcEffect) (turns : List Turn) (n : Nat) :
    (s.withInputs turns n).applyEffect e = (s.applyEffect e).withInputs turns n := by cases e <;> rfl

theorem takeKey_V_congr {s s' : State} (x : Reg) (hV : s'.V = s.V) (hkeys : s'.turn.keys = s.turn.keys)
    (hpick : s'.turn.pick = s.turn.pick) : (s'.takeKey x).V = (s.takeKey x).V := by
  unfold State.takeKey
  rw [hkeys, hpick]
  split <;> simp [hV]

theorem pcEffect_withInputs (i : Instr) (s : State) (turns : List Turn) (n : Nat)
    (hkeys : ReadsKeys i → (s.withInputs turns n).turn.keys = s.turn.keys)
    (hpick : PicksKey i → (s.withInputs turns n).turn.pick = s.turn.pick) :
    i.pcEffect (s.withInputs turns n) = i.pcEffect s := by
  cases i with
  | skp x | sknp x => simp only [Instr.pcEffect, hkeys ⟨x, by simp⟩]; rfl
  | ldKey x => simp only [Instr.pcEffect, hkeys ⟨x, by simp⟩, hpick ⟨x, rfl⟩]
  | _ => rfl

theorem body_withInputs (i : Instr) (s : State) (turns : List Turn) (n : Nat)
    (hrnd : ReadsRandom i → (s.withInputs turns n).turn.rnd = s.turn.rnd)
    (hkeys : ReadsKeys i → (s.withInputs turns n).turn.keys = s.turn.keys)
    (hpick : PicksKey i → (s.withInputs turns n).turn.pick = s.turn.pick) :
    i.body (s.withInputs turns n) = (i.body s).withInputs turns n := by
  cases i with
  | rnd x kk => simp only [Instr.body, hrnd ⟨x, kk, rfl⟩]; rfl
  | ldKey x =>
    have hV := takeKey_V_congr x (s := s) (s' := s.withInputs turns n) rfl (hkeys ⟨x, by simp⟩) (hpick ⟨x, rfl⟩)
    simp only [Instr.body, hV]
    rfl
  | _ => rfl

/-- Settles O19: no fault, body or PC effect depends on an input that the instruction does not read. -/
theorem inputsReachOnlyTheirReaders : Obligations.InputsReachOnlyTheirReaders := by
  intro i s t turns n h hrnd hkeys hpick
  have hfault := faultCause_withInputs i s turns n
  rcases exec_cases h with ⟨cause, hc, rfl⟩ | ⟨hc, rfl⟩
  · exact exec_of_faultCause_some (hfault.trans hc)
  · rw [exec_of_faultCause_none (hfault.trans hc), pcEffect_withInputs i s turns n hkeys hpick,
      body_withInputs i s turns n hrnd hkeys hpick, complete, applyEffect_withInputs]

end Sys2Proof
end

section
/-! PROOFS. What a step can do (spec/30_encoding.md R90, R91; spec/60_exceptions.md R211 to R217): the faults of a step, the Halted core, and the rules of all runs. -/

namespace Sys2Proof.Machine

/-! ## The cycle and the step -/

theorem cycle_of_fetch_fails {s : State} (hfetch : s.pc.toNat + 1 > 0xFFF) :
    cycle s = .next (s.halt .fetchOutOfBounds none) := by
  have hno : ¬ fetchFits s.pc = true := by rw [fetchFits_iff]; omega
  exact if_neg hno

theorem cycle_of_decode_fails {s : State} (hfetch : s.pc.toNat + 1 ≤ 0xFFF) (hdecode : decodeWord s.opcode = none) :
    cycle s = .next (s.halt .unknownOpcode (some s.opcode)) := by
  have hfits : fetchFits s.pc = true := by rw [fetchFits_iff]; omega
  simp only [cycle, hfits, if_true, hdecode, raise]

theorem cycle_of_decodes {s : State} {i : Instr} (hfetch : s.pc.toNat + 1 ≤ 0xFFF)
    (hdecode : decodeWord s.opcode = some i) : cycle s = exec i s := by
  have hfits : fetchFits s.pc = true := by rw [fetchFits_iff]; omega
  simp only [cycle, hfits, if_true, hdecode]

theorem step_of_cycle_next {s u : State} (hrunning : s.mode = .running) (h : cycle s.clearChanged = .next u) :
    step s = .next (closeTurn s u) := by
  simp only [step, runTurn, stepOperation, hrunning, h]

theorem step_of_cycle_refused {s : State} {r : Refusal} (hrunning : s.mode = .running)
    (h : cycle s.clearChanged = .refused r) : step s = .refused r := by
  simp only [step, runTurn, stepOperation, hrunning, h]

theorem step_of_awaitingKey {s : State} {x : Reg} (hwait : s.mode = .awaitingKey x) :
    step s = .next (closeTurn s (s.clearChanged.keyWaitPoll x)) := by
  simp only [step, runTurn, stepOperation, hwait]

theorem step_of_halted {s : State} {d : Diagnostic} (hhalted : s.mode = .halted d) : step s = .next s := by
  simp only [step, runTurn, hhalted]

/-- Settles O7: the step is the cycle, which runs the decoded instruction. -/
theorem runningStepRunsTheDecodedInstruction : Obligations.RunningStepRunsTheDecodedInstruction := by
  intro s i hrunning hfetch hdecode
  have hcycle : cycle s.clearChanged = exec i s.clearChanged := cycle_of_decodes hfetch hdecode
  exact ⟨fun u h => step_of_cycle_next hrunning (hcycle.trans h), fun f => (nomatch f),
    fun r h => step_of_cycle_refused hrunning (hcycle.trans h)⟩

/-- Settles O50: the poll is the step of a waiting core, whatever memory and pc hold. -/
theorem waitingStepPolls : Obligations.WaitingStepPolls := fun _ _ hwait => step_of_awaitingKey hwait

/-- The fault cause of a Running step, none where its instruction completes (spec/60_exceptions.md R215). -/
def State.stepFault (s : State) : Option FaultCause :=
  if fetchFits s.pc then (decodeWord s.opcode).elim (some .unknownOpcode) (·.faultCause s) else some .fetchOutOfBounds

theorem stepFault_of_decodes {s : State} {i : Instr} (hfetch : fetchFits s.pc = true)
    (hdecode : decodeWord s.opcode = some i) : s.stepFault = i.faultCause s := by
  rw [State.stepFault, if_pos hfetch, hdecode, Option.elim_some]

theorem stepFault_of_decode_fails {s : State} (hfetch : fetchFits s.pc = true) (hdecode : decodeWord s.opcode = none) :
    s.stepFault = some .unknownOpcode := by
  rw [State.stepFault, if_pos hfetch, hdecode, Option.elim_none]

theorem stepFault_eq_some_iff (s : State) (c : FaultCause) : s.stepFault = some c ↔ StepFaultCondition s c := by
  by_cases hfetch : s.pc.toNat + 1 ≤ 0xFFF
  · have hfits : fetchFits s.pc = true := by rw [fetchFits_iff]; omega
    have hno : ¬ s.pc.toNat + 1 > 0xFFF := by omega
    cases hdecode : decodeWord s.opcode with
    | none => simp [stepFault_of_decode_fails hfits hdecode, StepFaultCondition, hfetch, hno, hdecode, eq_comm]
    | some i =>
      simp [stepFault_of_decodes hfits hdecode, StepFaultCondition, hfetch, hno, hdecode, faultCause_eq_some_iff]
  · have hfits : ¬ fetchFits s.pc = true := by rw [fetchFits_iff]; omega
    have hover : 4095 ≤ s.pc.toNat := by omega
    simp [State.stepFault, hfits, StepFaultCondition, hfetch, hover, eq_comm]

/-- The opcode of a fault's diagnostic: the word at pc, none where the fetch failed (R212). -/
def State.faultOpcode (s : State) (c : FaultCause) : Option Word :=
  if c = .fetchOutOfBounds then none else some s.opcode

theorem faultOpcode_of_faultCause {i : Instr} {s : State} {c : FaultCause} (h : i.faultCause s = some c) :
    s.faultOpcode c = some s.opcode := by
  refine if_neg ?_
  rintro rfl
  exact (faultCause_eq_some_iff i s _).mp h

/-- All that a cycle can do: its fault, or an instruction that completes at an address that could be fetched. -/
theorem cycle_outcomes {s u : State} (h : cycle s = .next u) :
    (∃ c, s.stepFault = some c ∧ u = s.halt c (s.faultOpcode c)) ∨
    (s.stepFault = none ∧ s.pc.toNat ≤ 0xFFE ∧
      ∃ i : Instr, i.faultCause s = none ∧ u = (i.body s).applyEffect (i.pcEffect s)) := by
  rcases cycle_cases h with ⟨hfetch, rfl⟩ | ⟨hfetch, hdecode, rfl⟩ | ⟨hfetch, i, hdecode, hexec⟩
  · exact .inl ⟨.fetchOutOfBounds, if_neg hfetch, rfl⟩
  · exact .inl ⟨.unknownOpcode, stepFault_of_decode_fails hfetch hdecode, rfl⟩
  · have hfault : s.stepFault = i.faultCause s := stepFault_of_decodes hfetch hdecode
    rcases exec_cases hexec with ⟨c, hc, rfl⟩ | ⟨hc, rfl⟩
    · exact .inl ⟨c, hfault.trans hc, by rw [faultOpcode_of_faultCause hc]⟩
    · exact .inr ⟨hfault.trans hc, (fetchFits_iff s.pc).mp hfetch, i, hc, rfl⟩

/-! ## Every run answers a next state (spec/60_exceptions.md R210) -/

theorem cycle_total (s : State) : ∃ u, cycle s = .next u := by
  by_cases hfetch : s.pc.toNat + 1 ≤ 0xFFF
  · cases hdecode : decodeWord s.opcode with
    | none => exact ⟨_, cycle_of_decode_fails hfetch hdecode⟩
    | some i =>
      obtain ⟨u, hu⟩ := exec_total i s
      exact ⟨u, (cycle_of_decodes hfetch hdecode).trans hu⟩
  · exact ⟨_, cycle_of_fetch_fails (not_le.mp hfetch)⟩

theorem step_total (s : State) : ∃ t, step s = .next t := by
  cases hmode : s.mode with
  | running =>
    obtain ⟨u, hu⟩ := cycle_total s.clearChanged
    exact ⟨_, step_of_cycle_next hmode hu⟩
  | awaitingKey x => exact ⟨_, step_of_awaitingKey hmode⟩
  | halted d => exact ⟨s, step_of_halted hmode⟩

/-- Settles O10, by induction on the length of the run. -/
theorem everyRunAnswersANextState : Obligations.EveryRunAnswersANextState := by
  intro k
  induction k with
  | zero => exact fun s => ⟨s, run_zero s⟩
  | succ k ih =>
    intro s
    obtain ⟨t, ht⟩ := step_total s
    rw [run_succ ht]
    exact ih t

/-! ## The Halted core (spec/30_encoding.md R93; spec/60_exceptions.md R217, R232) -/

theorem State.isHalted_iff (s : State) : s.isHalted = true ↔ ∃ d, s.mode = .halted d := by
  cases hmode : s.mode <;> simp [State.isHalted, hmode]

theorem run_of_halted {s : State} {d : Diagnostic} (hhalted : s.mode = .halted d) (k : Nat) :
    Sys2Proof.core.run k s = .next s := by
  induction k with
  | zero => exact run_zero s
  | succ k ih => rw [run_succ (step_of_halted hhalted), ih]

theorem timersRun_of_halted {s : State} {d : Diagnostic} (hhalted : s.mode = .halted d) : s.timersRun = false := by
  simp only [State.timersRun, hhalted]

theorem timerTick_of_halted {s : State} {d : Diagnostic} (hhalted : s.mode = .halted d) : s.timerTick = s := by
  simp [State.timerTick, timersRun_of_halted hhalted]

/-- Settles O9: the step of a Halted core answers the same state. -/
theorem haltedIsFinal : Obligations.HaltedIsFinal := by
  intro k n s h
  obtain ⟨d, hhalted⟩ := s.isHalted_iff.mp h
  exact ⟨run_of_halted hhalted k, timerTick_of_halted hhalted, by simp [State.timerTicks, timersRun_of_halted hhalted]⟩

/-! ## The faults of a step (spec/60_exceptions.md R211 to R215) -/

/-- The ticks of the turn do nothing to a core that has just halted. -/
theorem haltsWith_closeTurn (c : FaultCause) (o : Option Word) (s : State) :
    HaltsWith c o s (closeTurn s (s.clearChanged.halt c o)) := by
  refine ⟨rfl, rfl, ?_⟩
  intro component hc
  cases component with
  | mode | changed | inputs => simp at hc
  | V | mem => exact fun _ => rfl
  | I | pc | SP | stack | DT | ST | FB => rfl

/-- Settles O8: the two faults of the cycle before an instruction runs. -/
theorem fetchAndDecodeFaultsHalt : Obligations.FetchAndDecodeFaultsHalt := by
  intro s hrunning
  exact ⟨fun hfetch => ⟨_, step_of_cycle_next hrunning (cycle_of_fetch_fails hfetch),
      haltsWith_closeTurn .fetchOutOfBounds none s⟩,
    fun hfetch hdecode => ⟨_, step_of_cycle_next hrunning (cycle_of_decode_fails hfetch hdecode),
      haltsWith_closeTurn .unknownOpcode (some s.opcode) s⟩⟩

theorem faultCause_clearChanged (i : Instr) (s : State) : i.faultCause s.clearChanged = i.faultCause s := by
  cases i <;> rfl

theorem stepFault_clearChanged (s : State) : s.clearChanged.stepFault = s.stepFault := by
  simp [State.stepFault, faultCause_clearChanged]

/-- A Running step halts where it faults, and is not halted where its instruction completes. -/
theorem running_step_cases {s t : State} (hrunning : s.mode = .running) (h : step s = .next t) :
    (∃ c, s.stepFault = some c ∧ t = closeTurn s (s.clearChanged.halt c (s.faultOpcode c))) ∨
    (s.stepFault = none ∧ t.isHalted = false) := by
  obtain ⟨u, hu⟩ := cycle_total s.clearChanged
  have ht : closeTurn s u = t := Host.Outcome.next.inj ((step_of_cycle_next hrunning hu).symm.trans h)
  rw [← ht, ← stepFault_clearChanged s]
  rcases cycle_outcomes hu with ⟨c, hc, rfl⟩ | ⟨hnone, -, i, -, rfl⟩
  · exact .inl ⟨c, hc, rfl⟩
  · refine .inr ⟨hnone, ?_⟩
    cases heff : i.pcEffect s.clearChanged <;> simp [State.isHalted, closeTurn, hrunning]

/-- A waiting core does not halt. -/
theorem closeTurn_keyWaitPoll_isHalted {s : State} {x : Reg} (hwait : s.mode = .awaitingKey x) :
    (closeTurn s (s.clearChanged.keyWaitPoll x)).isHalted = false := by
  unfold State.keyWaitPoll
  split <;> simp [State.isHalted, closeTurn, hwait]

/-- Only a Running step that faults halts a core. -/
theorem stepFault_of_step_halts {s t : State} (hs : s.isHalted = false) (h : step s = .next t)
    (ht : t.isHalted = true) :
    s.mode = .running ∧ ∃ c, s.stepFault = some c ∧ t = closeTurn s (s.clearChanged.halt c (s.faultOpcode c)) := by
  cases hmode : s.mode with
  | running =>
    refine ⟨rfl, (running_step_cases hmode h).resolve_right ?_⟩
    simp [ht]
  | awaitingKey x =>
    have : closeTurn s (s.clearChanged.keyWaitPoll x) = t :=
      Host.Outcome.next.inj ((step_of_awaitingKey hmode).symm.trans h)
    simp [← this, closeTurn_keyWaitPoll_isHalted hmode] at ht
  | halted d => simp [State.isHalted, hmode] at hs

theorem not_stepFaultCondition_romTooLarge (s : State) : ¬ StepFaultCondition s .romTooLarge := by
  simp [StepFaultCondition, FaultCondition]

/-- Settles O11: a step halts a core only by the fault of its cycle. -/
theorem everyFaultIsPrecise : Obligations.EveryFaultIsPrecise := by
  intro s t d hs h hd
  obtain ⟨hrunning, c, hc, rfl⟩ := stepFault_of_step_halts hs h (t.isHalted_iff.mpr ⟨d, hd⟩)
  obtain rfl : (⟨c, s.faultOpcode c, s.pc⟩ : Diagnostic) = d := Mode.halted.inj hd
  refine ⟨haltsWith_closeTurn c _ s, hrunning, fun hfetch => if_pos hfetch, fun hfetch => if_neg hfetch, ?_⟩
  rintro rfl
  exact not_stepFaultCondition_romTooLarge s ((stepFault_eq_some_iff s _).mp hc)

/-- Settles O12: a Running step halts with its fault cause and completes where it has none. -/
theorem aStepFaultsExactlyWhereListed : Obligations.AStepFaultsExactlyWhereListed := by
  intro s cause hrunning
  rw [← stepFault_eq_some_iff]
  obtain ⟨t, ht⟩ := step_total s
  constructor
  · rintro ⟨t', d, ht', hd, rfl⟩
    have hs : s.isHalted = false := by simp [State.isHalted, hrunning]
    obtain ⟨-, c, hc, rfl⟩ := stepFault_of_step_halts hs ht' (t'.isHalted_iff.mpr ⟨d, hd⟩)
    obtain rfl : (⟨c, s.faultOpcode c, s.pc⟩ : Diagnostic) = d := Mode.halted.inj hd
    exact hc
  · intro hcause
    rcases running_step_cases hrunning ht with ⟨c, hc, rfl⟩ | ⟨hnone, -⟩
    · exact ⟨_, ⟨c, s.faultOpcode c, s.pc⟩, ht, rfl, Option.some.inj (hc.symm.trans hcause)⟩
    · simp [hnone] at hcause

/-! ## Stack slot 0 (spec/10_state.md R28) -/

theorem getElem_set_slot (stack : Vector Word 16) (j k : Fin 16) (w : Word) :
    (stack.set j w)[k] = if k = j then w else stack[k] := by
  by_cases h : k = j
  · subst h; simp
  · have h' : (j : Nat) ≠ k := fun e => h (Fin.ext e.symm)
    simp [h, Vector.getElem_set_ne _ _ h']

/-- An instruction that completes leaves slot 0: a call pushes to slot SP + 1. -/
theorem body_stack_zero {i : Instr} {s : State} (hcompletes : i.faultCause s = none) :
    (i.body s).stack[(0 : Fin 16)] = s.stack[(0 : Fin 16)] := by
  cases i with
  | call nnn =>
    have hSP : s.SP ≠ 15 := by simpa [Instr.faultCause] using hcompletes
    have hslot : (0 : Fin 16) ≠ s.SP + 1 := by omega
    exact (getElem_set_slot s.stack (s.SP + 1) 0 (s.pc + 2)).trans (if_neg hslot)
  | _ => rfl

theorem keyWaitPoll_eq (s : State) (x : Reg) :
    s.keyWaitPoll x = s ∨ ∃ V, s.keyWaitPoll x = { s with V := V, pc := s.pc + 2, mode := .running } := by
  unfold State.keyWaitPoll
  split
  · exact .inr ⟨_, rfl⟩
  · exact .inl rfl

/-- Settles O15: a call writes the slot above SP, which is not slot 0 below SP = 15. -/
theorem stackSlotZeroIsNeverWritten : Obligations.StackSlotZeroIsNeverWritten := by
  intro s t h
  rcases step_cases h with ⟨d, -, rfl⟩ | ⟨x, -, rfl⟩ | ⟨-, u, hu, rfl⟩
  · rfl
  · rcases keyWaitPoll_eq s.clearChanged x with hpoll | ⟨V, hpoll⟩ <;> rw [hpoll] <;> rfl
  · rcases cycle_outcomes hu with ⟨c, -, rfl⟩ | ⟨-, -, i, hcompletes, rfl⟩
    · rfl
    · simpa [closeTurn] using body_stack_zero hcompletes

/-! ## The invariant (spec/10_state.md R25, R28) -/

/-- Settles O13, component by component. -/
theorem resetMeetsTheInvariant : Obligations.ResetMeetsTheInvariant where
  memory := rfl
  pcReach := by decide
  returnAddresses := by decide
  waitFetched := by simp [State.reset]
  haltPlace := by simp [State.reset]

theorem State.Inv.clearChanged {s : State} (h : s.Inv) : s.clearChanged.Inv where
  memory := h.memory
  pcReach := h.pcReach
  returnAddresses := h.returnAddresses
  waitFetched := h.waitFetched
  haltPlace d hd := by
    obtain ⟨hplace, -⟩ := h.haltPlace d hd
    exact ⟨hplace, rfl⟩

theorem State.Inv.halt {s : State} (h : s.Inv) (c : FaultCause) (o : Option Word) : (s.halt c o).Inv where
  memory := h.memory
  pcReach := h.pcReach
  returnAddresses := h.returnAddresses
  waitFetched x hx := by simp at hx
  haltPlace d hd := by
    obtain rfl := Mode.halted.inj hd
    exact ⟨rfl, rfl⟩

theorem State.Inv.closeTurn {u : State} (h : u.Inv) (s : State) : (closeTurn s u).Inv where
  memory := h.memory
  pcReach := h.pcReach
  returnAddresses := h.returnAddresses
  waitFetched := h.waitFetched
  haltPlace := h.haltPlace

theorem toNat_add_le_of_fetched {pc k : Word} (hpc : pc.toNat ≤ 0xFFE) (hk : k.toNat ≤ 4) :
    (pc + k).toNat ≤ 0x1002 := by
  rw [BitVec.toNat_add]
  omega

theorem State.Inv.keyWaitPoll {s : State} (h : s.Inv) {x : Reg} (hwait : s.mode = .awaitingKey x) :
    (s.keyWaitPoll x).Inv := by
  rcases keyWaitPoll_eq s x with hpoll | ⟨V, hpoll⟩ <;> rw [hpoll]
  · exact h
  · exact {
      memory := h.memory
      pcReach := (toNat_add_le_of_fetched (h.waitFetched x hwait) (by decide)).trans (by decide)
      returnAddresses := h.returnAddresses
      waitFetched := fun _ hx => nomatch hx
      haltPlace := fun _ hd => nomatch hd }

theorem body_mem_wf {i : Instr} {s : State} (hcompletes : i.faultCause s = none) (h : Memory.wf s.mem = true) :
    Memory.wf (i.body s).mem = true := by
  cases i with
  | ldB x =>
    have hrange : rangeFits s.I 3 = true := by simpa [Instr.faultCause] using hcompletes
    exact Memory.wf_writeBytes _ _ h (by simpa [rangeFits_iff] using hrange)
  | storeRegs x =>
    have hrange : rangeFits s.I (x.val + 1) = true := by simpa [Instr.faultCause] using hcompletes
    refine Memory.wf_writeBytes _ _ h ?_
    rw [storedRegisters_length]
    simpa [rangeFits_iff] using hrange
  | _ => exact h

/-- The stack holds return addresses: a call at an address that could be fetched pushes one. -/
theorem body_returnAddresses {i : Instr} {s : State} (hfetch : s.pc.toNat ≤ 0xFFE)
    (h : ∀ j : Fin 16, s.stack[j].toNat ≤ 0x1000) (j : Fin 16) : (i.body s).stack[j].toNat ≤ 0x1000 := by
  cases i with
  | call nnn =>
    have hslot : (Instr.body (.call nnn) s).stack[j] = if j = s.SP + 1 then s.pc + 2 else s.stack[j] :=
      getElem_set_slot s.stack (s.SP + 1) j (s.pc + 2)
    rw [hslot]
    split
    · rw [BitVec.toNat_add]
      simp only [BitVec.ofNat_eq_ofNat, BitVec.toNat_ofNat]
      omega
    · exact h j
  | _ => exact h j

/-- No jump goes beyond 0x10FE (spec/41_control_flow.md R121 to R124). -/
theorem pcEffect_jump_le {i : Instr} {s : State} {target : Word} (h : ∀ j : Fin 16, s.stack[j].toNat ≤ 0x1000)
    (hjump : i.pcEffect s = .jump target) : target.toNat ≤ 0x10FE := by
  rcases (pcEffect_eq_jump_iff i s target).mp hjump with ⟨nnn, -, rfl⟩ | ⟨nnn, -, rfl⟩ | ⟨-, rfl⟩
  · rw [zext16_toNat (by decide)]
    omega
  · rw [BitVec.toNat_add, zext16_toNat (by decide), zext16_toNat (by decide)]
    omega
  · exact (h s.SP).trans (by decide)

theorem State.Inv.complete {s : State} (h : s.Inv) (hrunning : s.mode = .running) (hfetch : s.pc.toNat ≤ 0xFFE)
    {i : Instr} (hcompletes : i.faultCause s = none) : ((i.body s).applyEffect (i.pcEffect s)).Inv where
  memory := by simpa using body_mem_wf hcompletes h.memory
  returnAddresses j := by simpa using body_returnAddresses hfetch h.returnAddresses j
  pcReach := by
    cases heffect : i.pcEffect s with
    | next => simpa using (toNat_add_le_of_fetched hfetch (k := 2) (by decide)).trans (by decide)
    | skip => simpa using (toNat_add_le_of_fetched hfetch (k := 4) (by decide)).trans (by decide)
    | jump target => exact pcEffect_jump_le h.returnAddresses heffect
    | wait x => simpa using h.pcReach
  waitFetched x hx := by
    cases heffect : i.pcEffect s with
    | wait => simpa using hfetch
    | _ => simp [heffect, hrunning] at hx
  haltPlace d hd := by
    cases heffect : i.pcEffect s <;> simp [heffect, hrunning] at hd

/-- Settles O14: a fault stands where it happened, and an instruction completes only where it could be fetched. -/
theorem stepKeepsTheInvariant : Obligations.StepKeepsTheInvariant := by
  intro s t h hstep
  rcases step_cases hstep with ⟨d, -, rfl⟩ | ⟨x, hwait, rfl⟩ | ⟨hrunning, u, hu, rfl⟩
  · exact h
  · exact (h.clearChanged.keyWaitPoll hwait).closeTurn s
  · rcases cycle_outcomes hu with ⟨c, -, rfl⟩ | ⟨-, hfetch, i, hcompletes, rfl⟩
    · exact (h.clearChanged.halt c _).closeTurn s
    · exact (h.clearChanged.complete hrunning hfetch hcompletes).closeTurn s

end Sys2Proof.Machine
end

section
/-! PROOFS. The display (spec/40_display.md): a draw flips a set of pixels once each, and what that says of 00E0 and Dxyn. -/

namespace Sys2Proof.Machine

/-! ## The pixels of a sprite (R112, R116) -/

theorem pixelColumn_eq_iff (a : Byte) (c : Nat) (px : Fin 64) : px = pixelColumn a c ↔ px.val = (a.toNat + c) % 64 :=
  Fin.ext_iff

theorem pixelRow_eq_iff (b : Byte) (r : Nat) (py : Fin 32) : py = pixelRow b r ↔ py.val = (b.toNat + r) % 32 :=
  Fin.ext_iff

theorem pixelColumn_inj {a : Byte} {c c' : Nat} (hc : c < 8) (hc' : c' < 8) (h : pixelColumn a c = pixelColumn a c') :
    c = c' := by
  have hmod : (a.toNat + c) % 64 = (a.toNat + c') % 64 := (pixelColumn_eq_iff a c' _).mp h
  omega

theorem pixelRow_inj {b : Byte} {r r' : Nat} (hr : r < 15) (hr' : r' < 15) (h : pixelRow b r = pixelRow b r') :
    r = r' := by
  have hmod : (b.toNat + r) % 32 = (b.toNat + r') % 32 := (pixelRow_eq_iff b r' _).mp h
  omega

/-- Settles O23: 8 columns are fewer than 64 and 15 rows fewer than 32. -/
theorem spritePixelsAreDistinct : Obligations.SpritePixelsAreDistinct := fun _ _ _ _ _ _ hc hc' hr hr' hcolumn hrow =>
  ⟨pixelColumn_inj hc hc' hcolumn, pixelRow_inj hr hr' hrow⟩

/-! ## Flipping a set of pixels (R111, R112) -/

/-- From `acc` to `acc'` the pixels of `P` are flipped, no others, and `collide` is set where one of them was lit. -/
structure Flips (P : Fin 64 → Fin 32 → Prop) (acc acc' : Framebuffer × Bool) : Prop where
  inside : ∀ px py, P px py → acc'.1[px][py] = !acc.1[px][py]
  outside : ∀ px py, ¬ P px py → acc'.1[px][py] = acc.1[px][py]
  collide : acc'.2 = true ↔ acc.2 = true ∨ ∃ px py, P px py ∧ acc.1[px][py] = true

theorem Flips.congr {P Q : Fin 64 → Fin 32 → Prop} {acc acc' : Framebuffer × Bool} (h : Flips P acc acc')
    (hiff : ∀ px py, Q px py ↔ P px py) : Flips Q acc acc' where
  inside px py hQ := h.inside px py ((hiff px py).mp hQ)
  outside px py hQ := h.outside px py fun hP => hQ ((hiff px py).mpr hP)
  collide := by simp only [h.collide, hiff]

theorem Flips.not_collide {P : Fin 64 → Fin 32 → Prop} {fb : Framebuffer} {acc : Framebuffer × Bool}
    (h : Flips P (fb, false) acc) (hdark : ∀ px py, P px py → fb[px][py] = false) : acc.2 = false := by
  rw [← Bool.not_eq_true, h.collide]
  rintro (hno | ⟨px, py, hP, hlit⟩)
  · cases hno
  · exact Bool.noConfusion ((hdark px py hP).symm.trans hlit)

theorem Flips.none (acc : Framebuffer × Bool) : Flips (fun _ _ => False) acc acc where
  inside _ _ h := h.elim
  outside _ _ _ := rfl
  collide := by simp

/-- Flipping two sets that share no pixel flips their union. -/
theorem Flips.comp {P Q : Fin 64 → Fin 32 → Prop} {acc acc' acc'' : Framebuffer × Bool} (h : Flips P acc acc')
    (h' : Flips Q acc' acc'') (hdisjoint : ∀ px py, P px py → ¬ Q px py) :
    Flips (fun px py => P px py ∨ Q px py) acc acc'' where
  inside px py hPQ := by
    rcases hPQ with hP | hQ
    · rw [h'.outside px py (hdisjoint px py hP), h.inside px py hP]
    · rw [h'.inside px py hQ, h.outside px py fun hP => hdisjoint px py hP hQ]
  outside px py hPQ := by
    obtain ⟨hP, hQ⟩ := not_or.mp hPQ
    rw [h'.outside px py hQ, h.outside px py hP]
  collide := by
    have hkept (px py) (hQ : Q px py) : acc'.1[px][py] = acc.1[px][py] :=
      h.outside px py fun hP => hdisjoint px py hP hQ
    have hQ : (∃ px py, Q px py ∧ acc'.1[px][py] = true) ↔ ∃ px py, Q px py ∧ acc.1[px][py] = true :=
      exists₂_congr fun px py => and_congr_right fun hQ => by rw [hkept px py hQ]
    rw [h'.collide, h.collide, hQ]
    simp only [or_and_right, exists_or, or_assoc]

theorem drawPixel_flips (a b row : Byte) (r c : Nat) (acc : Framebuffer × Bool) :
    Flips (fun px py => spriteBit row c = true ∧ px = pixelColumn a c ∧ py = pixelRow b r) acc
      (drawPixel a b row r c acc) := by
  by_cases hbit : spriteBit row c = true
  · have hdraw : drawPixel a b row r c acc =
        ((xorPixel acc.1 (pixelColumn a c) (pixelRow b r)).1, acc.2 || acc.1[pixelColumn a c][pixelRow b r]) :=
      if_pos hbit
    rw [hdraw]
    refine ⟨fun px py h => ?_, fun px py h => ?_, ?_⟩
    · obtain ⟨-, rfl, rfl⟩ := h
      rw [xorPixel_getElem, if_pos ⟨rfl, rfl⟩]
    · rw [xorPixel_getElem, if_neg fun hpixel => h ⟨hbit, hpixel⟩]
    · simp [hbit]
  · have hdraw : drawPixel a b row r c acc = acc := if_neg hbit
    rw [hdraw]
    exact (Flips.none acc).congr fun px py => by simp [hbit]

/-- Distinct columns of one row of the sprite are distinct pixels. -/
theorem drawColumns_flips (a b row : Byte) (r : Nat) (columns : List Nat) (hdistinct : columns.Nodup)
    (hbound : ∀ c ∈ columns, c < 8) (acc : Framebuffer × Bool) :
    Flips (fun px py => ∃ c ∈ columns, spriteBit row c = true ∧ px = pixelColumn a c ∧ py = pixelRow b r) acc
      (columns.foldl (fun acc c => drawPixel a b row r c acc) acc) := by
  induction columns generalizing acc with
  | nil => exact (Flips.none acc).congr fun px py => by simp
  | cons c columns ih =>
    obtain ⟨hnew, hdistinct⟩ := List.nodup_cons.mp hdistinct
    obtain ⟨hc, hbound⟩ := List.forall_mem_cons.mp hbound
    refine ((drawPixel_flips a b row r c acc).comp (ih hdistinct hbound _) ?_).congr fun px py => by simp
    rintro px py ⟨-, rfl, -⟩ ⟨c', hc', -, hcolumn, -⟩
    exact hnew (pixelColumn_inj hc (hbound c' hc') hcolumn ▸ hc')

theorem drawRow_flips (a b row : Byte) (r : Nat) (acc : Framebuffer × Bool) :
    Flips (fun px py => ∃ c, c < 8 ∧ spriteBit row c = true ∧ px = pixelColumn a c ∧ py = pixelRow b r) acc
      (drawRow a b row r acc) := by
  refine (drawColumns_flips a b row r [0, 1, 2, 3, 4, 5, 6, 7] (by decide) (by decide) acc).congr fun px py => ?_
  have hmem (c : Nat) : c < 8 ↔ c ∈ [0, 1, 2, 3, 4, 5, 6, 7] := List.mem_range.symm
  simp only [hmem]

/-- Distinct rows of the sprite are distinct pixels. -/
theorem drawRows_flips (a b : Byte) (rows : List Byte) (r : Nat) (hbound : r + rows.length ≤ 15)
    (acc : Framebuffer × Bool) :
    Flips (fun px py => ∃ k row c, rows[k]? = some row ∧ c < 8 ∧ spriteBit row c = true ∧ px = pixelColumn a c ∧
      py = pixelRow b (r + k)) acc (drawRows a b rows r acc) := by
  induction rows generalizing r acc with
  | nil => exact (Flips.none acc).congr fun px py => by simp
  | cons row rows ih =>
    rw [List.length_cons] at hbound
    refine ((drawRow_flips a b row r acc).comp (ih (r + 1) (by omega) _) ?_).congr fun px py => ?_
    · rintro px py ⟨c, -, -, -, rfl⟩ ⟨k, row', c', hrow', -, -, -, hrow⟩
      obtain ⟨hk, -⟩ := List.getElem?_eq_some_iff.mp hrow'
      have hsame := pixelRow_inj (by omega) (by omega) hrow
      omega
    · constructor
      · rintro ⟨k, row', c, hk, hpixel⟩
        cases k with
        | zero =>
          obtain rfl : row = row' := by simpa using hk
          exact .inl ⟨c, hpixel⟩
        | succ k => exact .inr ⟨k, row', c, by simpa using hk, by rwa [Nat.add_assoc, Nat.add_comm 1 k]⟩
      · rintro (⟨c, hpixel⟩ | ⟨k, row', c, hk, hpixel⟩)
        · exact ⟨0, row, c, rfl, hpixel⟩
        · exact ⟨k + 1, row', c, by simpa using hk, by rwa [Nat.add_assoc, Nat.add_comm 1 k] at hpixel⟩

/-! ## Dxyn -/

/-- The sprite that Dxyn draws flips the pixels on which it has a 1 bit (R112). -/
theorem drawSprite_flips (x y : Reg) (n : Fin 16) (s : State) :
    Flips (SpriteCovers x y n s) (s.FB, false)
      (drawSprite s.FB (s.reg x) (s.reg y) (Memory.readBytes s.mem s.I.toNat n.val)) := by
  refine (drawRows_flips _ _ _ 0 (by rw [Memory.readBytes_length]; omega) (s.FB, false)).congr fun px py => ?_
  constructor
  · rintro ⟨r, c, hr, hc, hcolumn, hrow, hbit⟩
    have hlength : r < (Memory.readBytes s.mem s.I.toNat n.val).length := by rwa [Memory.readBytes_length]
    refine ⟨r, _, c, List.getElem?_eq_getElem hlength, hc, ?_, (pixelColumn_eq_iff _ c px).mpr hcolumn, ?_⟩
    · rw [Memory.readBytes_getElem]
      exact hbit
    · rw [Nat.zero_add]
      exact (pixelRow_eq_iff _ r py).mpr hrow
  · rintro ⟨r, row, c, hr, hc, hbit, hcolumn, hrow⟩
    obtain ⟨hlength, rfl⟩ := List.getElem?_eq_some_iff.mp hr
    rw [Memory.readBytes_getElem] at hbit
    rw [Nat.zero_add] at hrow
    exact ⟨r, c, by rwa [Memory.readBytes_length] at hlength, hc, (pixelColumn_eq_iff _ c px).mp hcolumn,
      (pixelRow_eq_iff _ r py).mp hrow, hbit⟩

/-- Settles O21: the body of Dxyn flips the pixels of the sprite and leaves the collision in VF. -/
theorem drawFlipsTheSpritePixels : Obligations.DrawFlipsTheSpritePixels := by
  intro x y n s
  refine ⟨decodeWord_encode (.drw x y n), fun hrange => ?_, fun hrange => exec_faults (.inl ⟨x, y, n, rfl, hrange⟩)⟩
  have hcompletes : (Instr.drw x y n).faultCause s = none := by
    simpa [Instr.faultCause, ← rangeFits_eq_false_iff] using hrange
  obtain ⟨t, ht, rfl, hpc, hframe⟩ := exec_next hcompletes rfl
  have hflips := drawSprite_flips x y n s
  have hVF (flag : Byte) : (s.V.set regF flag)[regF] = flag := (getElem_set_reg s.V regF regF flag).trans (if_pos rfl)
  refine ⟨_, ht, fun px py => ⟨hflips.inside px py, hflips.outside px py⟩, fun ⟨px, py, hlit⟩ => ?_, fun hdark => ?_,
    registersKept_set rfl, rfl, hpc, hframe⟩
  · exact (hVF _).trans (congrArg collisionFlag (hflips.collide.mpr (.inr ⟨px, py, hlit⟩)))
  · exact (hVF _).trans (congrArg collisionFlag (hflips.not_collide hdark))

theorem framebuffer_ext {fb fb' : Framebuffer} (h : ∀ (px : Fin 64) (py : Fin 32), fb'[px][py] = fb[px][py]) :
    fb' = fb :=
  Vector.ext fun i hi => Vector.ext fun j hj => h ⟨i, hi⟩ ⟨j, hj⟩

/-- Settles O22: a sprite of no rows covers no pixel, so the draw leaves the framebuffer too. -/
theorem drawOfNoRowsOnlyClearsVF : Obligations.DrawOfNoRowsOnlyClearsVF := by
  intro x y s
  obtain ⟨-, hdraws, -⟩ := drawFlipsTheSpritePixels x y 0 s
  obtain ⟨t, ht, hpixels, -, hVF, hregs, hchanged, hpc, hframe⟩ := hdraws (by simp [rangeOverruns])
  have hnone (px : Fin 64) (py : Fin 32) : ¬ SpriteCovers x y 0 s px py := by rintro ⟨r, c, hr, -⟩; cases hr
  refine ⟨t, ht, hVF fun px py h => absurd h (hnone px py), hchanged, hpc, hregs, fun c hc => ?_⟩
  by_cases hFB : c = .FB
  · subst hFB
    refine framebuffer_ext fun px py => ?_
    obtain ⟨-, hkept⟩ := hpixels px py
    exact hkept (hnone px py)
  · exact hframe c (by simp_all)

/-- Whether the sprite covers a pixel depends on the origin, on I and on memory alone. -/
theorem spriteCovers_congr {x y : Reg} {n : Fin 16} {s t : State} (hx : t.V[x] = s.V[x]) (hy : t.V[y] = s.V[y])
    (hI : t.I = s.I) (hmem : ∀ a, Memory.read t.mem a = Memory.read s.mem a) (px : Fin 64) (py : Fin 32) :
    SpriteCovers x y n t px py ↔ SpriteCovers x y n s px py := by
  simp only [SpriteCovers, hx, hy, hI, hmem]

/-- Settles O24: both draws flip the same pixels. -/
theorem drawingTwiceRestoresTheScreen : Obligations.DrawingTwiceRestoresTheScreen := by
  intro x y n s hx hy hrange
  obtain ⟨-, hfirst, -⟩ := drawFlipsTheSpritePixels x y n s
  obtain ⟨t, ht, hpixels, -, -, hregs, -, -, hframe⟩ := hfirst hrange
  have hI : t.I = s.I := hframe .I (by decide)
  obtain ⟨-, hsecond, -⟩ := drawFlipsTheSpritePixels x y n t
  obtain ⟨u, hu, hpixels', hcollide, -⟩ := hsecond (by rwa [hI])
  have hcovers := spriteCovers_congr (n := n) (hregs x (by simpa using hx)) (hregs y (by simpa using hy)) hI
    (hframe .mem (by decide))
  refine ⟨t, u, ht, hu, framebuffer_ext fun px py => ?_, fun ⟨px, py, hlit, hdark⟩ => ?_⟩
  · obtain ⟨hflip, hkept⟩ := hpixels px py
    obtain ⟨hflip', hkept'⟩ := hpixels' px py
    rw [hcovers px py] at hflip' hkept'
    by_cases h : SpriteCovers x y n s px py
    · rw [hflip' h, hflip h, Bool.not_not]
    · rw [hkept' h, hkept h]
  · refine hcollide ⟨px, py, (hcovers px py).mpr ?_, hlit⟩
    by_contra h
    obtain ⟨-, hkept⟩ := hpixels px py
    rw [hkept h, hdark] at hlit
    cases hlit

/-! ## 00E0 -/

/-- Settles O20: the body writes the blank framebuffer and Changed. -/
theorem clsBlanksTheScreen : Obligations.ClsBlanksTheScreen := by
  refine ⟨decodeWord_encode .cls, fun s => ?_⟩
  obtain ⟨t, ht, rfl, hpc, hframe⟩ := exec_next (i := .cls) (s := s) rfl rfl
  exact ⟨_, ht, blankFramebuffer_getElem, rfl, hpc, hframe⟩

/-- Settles O25: after a clear no pixel is lit. -/
theorem drawAfterClearHasNoCollision : Obligations.DrawAfterClearHasNoCollision := by
  intro x y n s hrange
  obtain ⟨-, hcls⟩ := clsBlanksTheScreen
  obtain ⟨t, ht, hblank, -, -, hframe⟩ := hcls s
  have hI : t.I = s.I := hframe .I (by decide)
  obtain ⟨-, hdraws, -⟩ := drawFlipsTheSpritePixels x y n t
  obtain ⟨u, hu, -, -, hVF, -⟩ := hdraws (by rwa [hI])
  exact ⟨t, u, ht, hu, hVF fun px py _ => hblank px py⟩

end Sys2Proof.Machine
end

section
/-! PROOFS. Call and return, arithmetic, the address register and the memory instructions (spec/41_control_flow.md, spec/42_alu.md, spec/43_index_memory.md). -/

namespace Sys2Proof.Machine

/-! ## Jumps with offset, call and return (R121, R123, R124, R129) -/

/-- Settles O27: nnn + V0 is at most 0x10FE, so no carry is lost in 16 bits. -/
theorem jumpWithOffsetAddsV0 : Obligations.JumpWithOffsetAddsV0 := by
  intro nnn s
  refine ⟨decodeWord_encode (.jpV0 nnn), _, rfl, ?_, changesOnly_pc_of_update s _⟩
  have hsum : (zext16 nnn + zext16 (s.reg 0)).toNat = (nnn.toNat + (s.reg 0).toNat) % 2 ^ 16 := by
    rw [BitVec.toNat_add, zext16_toNat (by decide), zext16_toNat (by decide)]
  exact hsum.trans (Nat.mod_eq_of_lt (by omega))

/-- Settles O28: the push is one write of the slot above SP. -/
theorem callPushesTheReturnAddress : Obligations.CallPushesTheReturnAddress := by
  intro nnn s
  refine ⟨decodeWord_encode (.call nnn), fun hSP => ?_, fun hSP => exec_faults ⟨⟨nnn, rfl⟩, hSP⟩⟩
  have hcompletes : (Instr.call nnn).faultCause s = none := if_neg (by omega)
  refine ⟨_, exec_of_faultCause_none hcompletes, ?_, ?_, fun j hj => ?_, zext16_toNat (by decide) nnn,
    completed_changesOnly (i := .call nnn) fun x hx => nomatch hx⟩
  · change (s.SP + 1 : Fin 16).val = s.SP.val + 1
    omega
  · exact (getElem_set_slot s.stack (s.SP + 1) (s.SP + 1) (s.pc + 2)).trans (if_pos rfl)
  · exact (getElem_set_slot s.stack (s.SP + 1) j (s.pc + 2)).trans (if_neg hj)

/-- Settles O29: the pop writes SP alone. -/
theorem returnPopsTheAddress : Obligations.ReturnPopsTheAddress := by
  refine ⟨decodeWord_encode .ret, fun s => ⟨fun hSP => ?_, fun hSP => exec_faults ⟨rfl, hSP⟩⟩⟩
  have hcompletes : Instr.ret.faultCause s = none := if_neg (by omega)
  refine ⟨_, exec_of_faultCause_none hcompletes, rfl, ?_, completed_changesOnly (i := .ret) fun x hx => nomatch hx⟩
  change (s.SP - 1 : Fin 16).val + 1 = s.SP.val
  omega

/-- Settles O30: the return pops what the call pushed. -/
theorem callAndReturnRoundTrip : Obligations.CallAndReturnRoundTrip := by
  intro nnn s hSP
  obtain ⟨-, hcall, -⟩ := callPushesTheReturnAddress nnn s
  obtain ⟨t, ht, htSP, hpushed, -⟩ := hcall hSP
  refine ⟨t, ht, fun t' hSP' hslot => ?_⟩
  obtain ⟨-, hret⟩ := returnPopsTheAddress
  obtain ⟨hpops, -⟩ := hret t'
  obtain ⟨u, hu, hpc, huSP, -⟩ := hpops (by omega)
  refine ⟨u, hu, ?_, Fin.ext (by omega)⟩
  calc u.pc = t'.stack[t'.SP] := hpc
    _ = t'.stack[t.SP] := by simp only [hSP']
    _ = t.stack[t.SP] := hslot
    _ = s.pc + 2 := hpushed

/-! ## Arithmetic with a flag, shifts and the random byte (spec/42_alu.md R141, R149 to R158) -/

theorem changesOnly_V_pc_of_update (s : State) (V : Vector Byte 16) (p : Word) :
    ChangesOnly [.V, .pc] s { s with V := V, pc := p } := by
  intro c hc
  cases c with
  | V | pc => simp at hc
  | mem => exact fun _ => rfl
  | inputs => exact ⟨rfl, rfl⟩
  | I | SP | stack | DT | ST | FB | changed | mode => rfl

/-- What an instruction does that writes `flag` to VF, then `v` to Vx, and goes on to the next one. -/
theorem exec_of_setFlagAndReg {i : Instr} {s : State} {x : Reg} {flag v : Byte} {Q Q' : State → Prop}
    (hexec : exec i s = complete (s.setFlagAndReg x flag v) .next) (hQ : ∀ t : State, t.V[x] = v → Q t)
    (hQ' : ∀ t : State, (x ≠ regF → t.V[regF] = flag) → Q' t) :
    ∃ t, exec i s = .next t ∧ Q t ∧ Q' t ∧ RegistersKept [x, regF] s t ∧ t.pc = s.pc + 2 ∧
      ChangesOnly [.V, .pc] s t := by
  have hV (r : Reg) : ((s.V.set regF flag).set x v)[r] = if r = x then v else if r = regF then flag else s.V[r] := by
    rw [getElem_set_reg, getElem_set_reg]
  refine ⟨_, hexec, hQ _ ?_, hQ' _ fun hx => ?_, fun r hr => ?_, rfl, changesOnly_V_pc_of_update s _ _⟩
  · exact (hV x).trans (if_pos rfl)
  · exact (hV regF).trans ((if_neg hx.symm).trans (if_pos rfl))
  · obtain ⟨hrx, hrF⟩ : r ≠ x ∧ r ≠ regF := by simpa using hr
    exact (hV r).trans ((if_neg hrx).trans (if_neg hrF))

theorem flagByte_decide (p : Prop) [Decidable p] : flagByte (decide p) = if p then 1 else 0 := by
  simp only [flagByte, decide_eq_true_eq]

/-- Settles O35: the sum and the carry are written as flag and register. -/
theorem addSetsTheCarry : Obligations.AddSetsTheCarry := fun x y s =>
  ⟨decodeWord_encode (.addReg x y), exec_of_setFlagAndReg (v := s.reg x + s.reg y) rfl
    (fun _ hx => hx ▸ BitVec.toNat_add (s.reg x) (s.reg y)) fun _ hF hx => (hF hx).trans (flagByte_decide _)⟩

theorem toNat_sub_byte (a b : Byte) : (a - b).toNat = (a.toNat + 256 - b.toNat) % 256 := by
  rw [BitVec.toNat_sub]
  omega

/-- Settles O36: the two instructions differ in the order of the operands. -/
theorem subtractionsFlagStrictlyGreater : Obligations.SubtractionsFlagStrictlyGreater := fun x y s =>
  ⟨decodeWord_encode (.subReg x y), decodeWord_encode (.subnReg x y),
    exec_of_setFlagAndReg (v := s.reg x - s.reg y) rfl
      (fun _ hx => hx ▸ toNat_sub_byte (s.reg x) (s.reg y)) fun _ hF hx => (hF hx).trans (flagByte_decide _),
    exec_of_setFlagAndReg (v := s.reg y - s.reg x) rfl
      (fun _ hx => hx ▸ toNat_sub_byte (s.reg y) (s.reg x)) fun _ hF hx => (hF hx).trans (flagByte_decide _)⟩

theorem toNat_shiftRight_one (a : Byte) : (a >>> 1).toNat = a.toNat / 2 := by
  rw [BitVec.toNat_ushiftRight, Nat.shiftRight_one]

theorem toNat_shiftLeft_one (a : Byte) : (a <<< 1).toNat = 2 * a.toNat % 256 := by
  rw [BitVec.toNat_shiftLeft, Nat.shiftLeft_eq, Nat.mul_comm]

theorem lowBitFlag_toNat (a : Byte) : (lowBitFlag a).toNat = a.toNat % 2 := by
  rw [lowBitFlag, BitVec.toNat_and]
  exact Nat.and_one_is_mod a.toNat

theorem highBitFlag_toNat (a : Byte) : (highBitFlag a).toNat = a.toNat / 128 := by
  have hlow : (highBitFlag a).toNat = (a >>> 7).toNat % 2 := lowBitFlag_toNat (a >>> 7)
  rw [hlow, BitVec.toNat_ushiftRight, Nat.shiftRight_eq_div_pow]
  omega

/-- Settles O37: the bit shifted out is the remainder by 2, or the quotient by 128. -/
theorem shiftsMoveTheBitIntoVF : Obligations.ShiftsMoveTheBitIntoVF := fun x y s =>
  ⟨decodeWord_encode (.shr x y), decodeWord_encode (.shl x y),
    exec_of_setFlagAndReg (v := s.reg x >>> 1) rfl
      (fun _ hx => hx ▸ toNat_shiftRight_one (s.reg x)) fun _ hF hx => hF hx ▸ lowBitFlag_toNat (s.reg x),
    exec_of_setFlagAndReg (v := s.reg x <<< 1) rfl
      (fun _ hx => hx ▸ toNat_shiftLeft_one (s.reg x)) fun _ hF hx => hF hx ▸ highBitFlag_toNat (s.reg x)⟩

/-- Settles O38: one register write; the mask is taken bit by bit. -/
theorem randomByteIsMasked : Obligations.RandomByteIsMasked := fun x kk s =>
  ⟨decodeWord_encode (.rnd x kk),
    exec_of_setReg (v := s.turn.rnd &&& kk) rfl fun _ hx _ => hx ▸ BitVec.getLsbD_and⟩

/-! ## The address register (spec/43_index_memory.md R170 to R174) -/

theorem glyphAddress_toNat (v : Byte) : (glyphAddress v).toNat = 0x050 + 5 * v.toNat := by
  have hmod : (glyphAddress v).toNat = (0x050 + 5 * v.toNat) % 2 ^ 16 := BitVec.toNat_ofNat _ 16
  omega

/-- Settles O39: 0x050 + 5 times a byte is below 2^16. -/
theorem addressRegisterLoads : Obligations.AddressRegisterLoads := by
  intro nnn x s
  obtain ⟨t, ht, rfl, htpc, htframe⟩ := exec_next (i := .ldI nnn) (s := s) rfl rfl
  obtain ⟨u, hu, rfl, hupc, huframe⟩ := exec_next (i := .ldF x) (s := s) rfl rfl
  exact ⟨decodeWord_encode (.ldI nnn), decodeWord_encode (.ldF x),
    ⟨_, ht, zext16_toNat (by decide) nnn, htpc, htframe⟩,
    ⟨_, hu, glyphAddress_toNat (s.reg x), hupc, huframe⟩⟩

/-- Settles O40: the sum of 16-bit words is modulo 2^16. -/
theorem addToAddressRegister : Obligations.AddToAddressRegister := by
  intro x s
  obtain ⟨t, ht, rfl, hpc, hframe⟩ := exec_next (i := .addI x) (s := s) rfl rfl
  refine ⟨decodeWord_encode (.addI x), _, ht, ?_, hpc, hframe⟩
  have hsum : (s.I + zext16 (s.reg x)).toNat = (s.I.toNat + (s.reg x).toNat) % 2 ^ 16 := by
    rw [BitVec.toNat_add, zext16_toNat (by decide)]
  exact hsum

/-! ## The memory instructions (spec/43_index_memory.md R176 to R180) -/

theorem rangeOverruns_iff (base : Word) {count last : Nat} (hcount : count = last + 1) :
    rangeOverruns base count ↔ base.toNat + last > 0xFFF := by
  rw [rangeOverruns]
  omega

theorem faultCause_none_of_range {i : Instr} {s : State} {count : Nat}
    (hi : i.faultCause s = if rangeFits s.I count then none else some .memoryOutOfBounds)
    (hrange : ¬ rangeOverruns s.I count) : i.faultCause s = none := by
  rw [← rangeFits_eq_false_iff, Bool.not_eq_false] at hrange
  rw [hi, if_pos hrange]

/-- Each digit of a byte fits in a byte. -/
theorem decimalDigits_toNat (a : Byte) :
    (decimalDigits a).map BitVec.toNat = [a.toNat / 100, a.toNat / 10 % 10, a.toNat % 10] := by
  simp only [decimalDigits, List.map_cons, List.map_nil, BitVec.toNat_ofNat, List.cons.injEq, and_true]
  omega

/-- What Fx33 writes is read back as the digits. -/
theorem read_decimalDigits (m : Memory) (base i : Nat) (a : Byte) (hi : i < 3) :
    (Memory.read (Memory.writeBytes m base (decimalDigits a)) (base + i)).toNat =
      [a.toNat / 100, a.toNat / 10 % 10, a.toNat % 10][i] := by
  rw [Memory.read_writeBytes_inside (decimalDigits a) m base i hi]
  simp only [← decimalDigits_toNat, List.getElem_map]
  rfl

/-- Settles O41: one block write of the three digits. -/
theorem decimalDigitsAreStored : Obligations.DecimalDigitsAreStored := by
  intro x s
  have hover := rangeOverruns_iff s.I (count := 3) rfl
  refine ⟨decodeWord_encode (.ldB x), fun hrange => ?_, fun hrange =>
    exec_faults (.inr (.inl ⟨x, rfl, hover.mpr hrange⟩))⟩
  have hcompletes := faultCause_none_of_range (i := .ldB x) rfl (hover.not.mpr (not_lt.mpr hrange))
  obtain ⟨t, ht, rfl, hpc, hframe⟩ := exec_next hcompletes rfl
  have hdigit (i : Nat) (hi : i < 3) := read_decimalDigits s.mem s.I.toNat i (s.reg x) hi
  exact ⟨_, ht, hdigit 0 (by decide), hdigit 1 (by decide), hdigit 2 (by decide),
    memoryKeptOutside_writeBytes s s.I.toNat (decimalDigits (s.reg x)), hpc, hframe⟩

/-- Settles O42: one block write of the registers. -/
theorem registersAreStored : Obligations.RegistersAreStored := by
  intro x s
  have hover := rangeOverruns_iff s.I (count := x.val + 1) rfl
  refine ⟨decodeWord_encode (.storeRegs x), fun hrange => ?_, fun hrange =>
    exec_faults (.inr (.inr ⟨x, .inl rfl, hover.mpr hrange⟩))⟩
  have hcompletes := faultCause_none_of_range (i := .storeRegs x) rfl (hover.not.mpr (not_lt.mpr hrange))
  obtain ⟨t, ht, rfl, hpc, hframe⟩ := exec_next hcompletes rfl
  have hkept := memoryKeptOutside_writeBytes s s.I.toNat (s.V.toList.take (x.val + 1))
  rw [storedRegisters_length] at hkept
  refine ⟨_, ht, fun r hr => ?_, hkept, hpc, hframe⟩
  have hlength : r.val < (s.V.toList.take (x.val + 1)).length := by
    rw [storedRegisters_length]
    exact Nat.lt_succ_of_le hr
  exact (Memory.read_writeBytes_inside _ s.mem s.I.toNat r.val hlength).trans (by simp)

/-- Settles O43, by what the register loop leaves in each register. -/
theorem registersAreLoaded : Obligations.RegistersAreLoaded := by
  intro x s
  have hover := rangeOverruns_iff s.I (count := x.val + 1) rfl
  refine ⟨decodeWord_encode (.loadRegs x), fun hrange => ?_, fun hrange =>
    exec_faults (.inr (.inr ⟨x, .inr rfl, hover.mpr hrange⟩))⟩
  have hcompletes := faultCause_none_of_range (i := .loadRegs x) rfl (hover.not.mpr (not_lt.mpr hrange))
  obtain ⟨t, ht, rfl, hpc, hframe⟩ := exec_next hcompletes rfl
  have hloaded := loadInto_getElem s.mem s.I.toNat (x.val + 1) s.V
  exact ⟨_, ht, fun r hr => (hloaded r).trans (if_pos (Nat.lt_succ_of_le hr)),
    fun r hr => (hloaded r).trans (if_neg (not_lt.mpr hr)), hpc, hframe⟩

/-- Settles O44: each register is read from the byte where it was stored. -/
theorem storeThenLoadRestoresTheRegisters : Obligations.StoreThenLoadRestoresTheRegisters := by
  intro x s hrange
  obtain ⟨-, hstores, -⟩ := registersAreStored x s
  obtain ⟨t, ht, hstored, -, -, hframe⟩ := hstores hrange
  have hI : t.I = s.I := hframe .I (by decide)
  refine ⟨t, ht, hI, fun t' hI' hkept => ?_⟩
  obtain ⟨-, hloads, -⟩ := registersAreLoaded x t'
  obtain ⟨u, hu, hloaded, -⟩ := hloads (by rwa [hI', hI])
  refine ⟨u, hu, fun r hr => ?_⟩
  calc u.V[r] = Memory.read t'.mem (t.I.toNat + r.val) := by rw [hloaded r hr, hI']
    _ = Memory.read t.mem (s.I.toNat + r.val) := by rw [hkept r.val hr, hI]
    _ = s.V[r] := hstored r hr

/-- Settles O45: the next fetch reads the two bytes that were stored. -/
theorem storedCodeIsFetchedNext : Obligations.StoredCodeIsFetchedNext := by
  intro x r r' s hrange hr' hr'x hplace
  obtain ⟨-, hstores, -⟩ := registersAreStored x s
  obtain ⟨t, ht, hstored, -, hpc, -⟩ := hstores hrange
  have hr : r ≤ r' := Fin.le_def.mpr (by omega)
  have hnext : t.pc.toNat = s.I.toNat + r.val := by
    have hlast : r.val ≤ x.val := hr.trans hr'x
    rw [hpc, BitVec.toNat_add, ← hplace]
    exact Nat.mod_eq_of_lt (show s.pc.toNat + 2 < 2 ^ 16 by omega)
  refine ⟨t, ht, ?_⟩
  rw [State.opcode, Memory.readWord, hnext, Nat.add_assoc, ← hr', hstored r (hr.trans hr'x), hstored r' hr'x]

end Sys2Proof.Machine
end

section
/-! PROOFS. Keys and timers (spec/44_input_timers.md; spec/60_exceptions.md R222 to R232). -/

namespace Sys2Proof.Machine

/-! ## Skips on keys (R190 to R192) -/

/-- Settles O46: the key is the register's whole value, so a value above 15 names none. -/
theorem skipsOnKeys : Obligations.SkipsOnKeys := by
  intro x s
  refine ⟨decodeWord_encode (.skp x), decodeWord_encode (.sknp x), fun k hk => ?_, fun hover =>
    ⟨exec_faults ⟨x, .inl rfl, hover⟩, exec_faults ⟨x, .inr rfl, hover⟩⟩⟩
  have hkey : keyOf (s.reg x) = some k := (keyOf_eq_some _ k).mpr hk.symm
  have hskp : exec (.skp x) s = complete s (skipIf s.turn.keys[k]) := by simp only [exec, execSkp, hkey]
  have hsknp : exec (.sknp x) s = complete s (skipIf (!s.turn.keys[k])) := by simp only [exec, execSknp, hkey]
  exact ⟨exec_of_skipIf hskp id id, exec_of_skipIf hsknp (by simp) (by simp)⟩

/-! ## The choice of a key (R194, R196) -/

theorem someKeyPressed_iff (s : State) : SomeKeyPressed s ↔ pressedKeys s.turn.keys ≠ [] := by
  simp only [SomeKeyPressed, ← mem_pressedKeys, ne_eq, List.eq_nil_iff_forall_not_mem, not_forall, not_not]

theorem pickKey_of_pressed {s : State} (h : SomeKeyPressed s) :
    ∃ k, pickKey s.turn.keys s.turn.pick = some k ∧ s.turn.keys[k] = true := by
  have hne := (pickKey_eq_none s.turn.keys s.turn.pick).not.mpr ((someKeyPressed_iff s).mp h)
  obtain ⟨k, hk⟩ := Option.ne_none_iff_exists'.mp hne
  exact ⟨k, hk, pickKey_pressed hk⟩

theorem pickKey_of_none_pressed {s : State} (h : ¬ SomeKeyPressed s) : pickKey s.turn.keys s.turn.pick = none :=
  (pickKey_eq_none _ _).mpr (by rwa [someKeyPressed_iff, not_not] at h)

/-- Settles O51: a pressed key stands in the list of pressed keys, and its place there picks it. -/
theorem everyPressedKeyCanBePicked : Obligations.EveryPressedKeyCanBePicked := by
  intro keys k
  refine ⟨⟨fun ⟨pick, hpick⟩ => pickKey_pressed hpick, fun hk => ?_⟩, fun pick => ?_⟩
  · obtain ⟨place, hplace, hat⟩ := List.getElem_of_mem ((mem_pressedKeys keys k).mpr hk)
    refine ⟨place, ?_⟩
    rw [pickKey, Nat.mod_eq_of_lt hplace, List.getElem?_eq_getElem hplace, hat]
  · rw [pickKey_eq_none, List.eq_nil_iff_forall_not_mem]
    simp only [mem_pressedKeys, Bool.not_eq_true]

/-! ## Fx0A and the wait (R194, R195) -/

theorem keyByte_toNat (k : Fin 16) : (keyByte k).toNat = k.val := by
  rw [keyByte, BitVec.toNat_ofNat]
  omega

theorem changesOnly_mode_of_update (s : State) (m : Mode) : ChangesOnly [.mode] s { s with mode := m } := by
  intro c hc
  cases c with
  | mode => exact absurd (List.mem_singleton.mpr rfl) hc
  | V | mem => exact fun _ => rfl
  | inputs => exact ⟨rfl, rfl⟩
  | I | pc | SP | stack | DT | ST | FB | changed => rfl

/-- Settles O48: with a key pressed Fx0A is one register write, with none one change of mode. -/
theorem keyWaitStarts : Obligations.KeyWaitStarts := by
  intro x s
  refine ⟨decodeWord_encode (.ldKey x), fun hpressed => ?_, fun hnone => ?_⟩
  · obtain ⟨k, hpick, hk⟩ := pickKey_of_pressed hpressed
    have hexec : exec (.ldKey x) s = complete (s.setReg x (keyByte k)) .next := by
      simp [exec, execLdKey, State.takeKey, hpick]
    obtain ⟨t, ht, hx, hrest⟩ := exec_of_setReg hexec (Q := fun t => t.V[x].toNat = k.val)
      fun _ hx => hx ▸ keyByte_toNat k
    exact ⟨t, k, ht, hk, hx, hrest⟩
  · have hpick := pickKey_of_none_pressed hnone
    have hexec : exec (.ldKey x) s = .next { s with mode := .awaitingKey x } := by
      simp [exec, execLdKey, State.takeKey, hpick, complete, State.applyEffect]
    exact ⟨_, hexec, rfl, changesOnly_mode_of_update s _⟩

theorem keyWaitPoll_of_pick {s : State} {k : Fin 16} (x : Reg) (hpick : pickKey s.turn.keys s.turn.pick = some k) :
    s.keyWaitPoll x = { s.setReg x (keyByte k) with pc := s.pc + 2, mode := .running } := by
  simp only [State.keyWaitPoll, hpick]

theorem keyWaitPoll_of_none_pressed {s : State} (x : Reg) (hnone : ¬ SomeKeyPressed s) : s.keyWaitPoll x = s := by
  simp only [State.keyWaitPoll, pickKey_of_none_pressed hnone]

/-- Settles O49, by whether a key is picked. -/
theorem keyWaitPollCompletesOnAKey : Obligations.KeyWaitPollCompletesOnAKey := by
  intro x s
  refine ⟨fun hpressed => ?_, keyWaitPoll_of_none_pressed x⟩
  obtain ⟨k, hpick, hk⟩ := pickKey_of_pressed hpressed
  have hx : (s.V.set x (keyByte k))[x] = keyByte k := (getElem_set_reg s.V x x _).trans (if_pos rfl)
  rw [keyWaitPoll_of_pick x hpick]
  refine ⟨k, hk, (congrArg BitVec.toNat hx).trans (keyByte_toNat k), registersKept_set rfl, rfl, rfl, ?_⟩
  intro c hc
  cases c with
  | V | pc | mode => simp at hc
  | mem => exact fun _ => rfl
  | inputs => exact ⟨rfl, rfl⟩
  | I | SP | stack | DT | ST | FB | changed => rfl

theorem turn_of_turns {s : State} {turn : Turn} {rest : List Turn} (h : s.turns = turn :: rest) : s.turn = turn := by
  simp only [State.turn, h]

/-- A turn with no key pressed leaves a waiting core waiting, at the same pc and with the same registers. -/
theorem step_of_quiet_wait {x : Reg} {s : State} {turn : Turn} {rest : List Turn} (hwait : s.mode = .awaitingKey x)
    (hturns : s.turns = turn :: rest) (hquiet : ∀ k : Fin 16, turn.keys[k] = false) :
    ∃ t, step s = .next t ∧ t.mode = .awaitingKey x ∧ t.pc = s.pc ∧ t.V = s.V ∧ t.turns = rest := by
  have hnone : ¬ SomeKeyPressed s.clearChanged := by
    simp [SomeKeyPressed, turn_of_turns hturns, hquiet]
  refine ⟨_, step_of_awaitingKey hwait, ?_⟩
  rw [keyWaitPoll_of_none_pressed x hnone]
  exact ⟨hwait, rfl, rfl, by simp [closeTurn, hturns]⟩

/-- A turn with a pressed key ends the wait. -/
theorem step_of_pressed_wait {x : Reg} {s : State} (hwait : s.mode = .awaitingKey x) (hpressed : SomeKeyPressed s) :
    ∃ (u : State) (k : Fin 16), step s = .next u ∧ s.turn.keys[k] = true ∧ u.V[x].toNat = k.val ∧
      RegistersKept [x] s u ∧ u.mode = .running ∧ u.pc = s.pc + 2 := by
  obtain ⟨hpoll, -⟩ := keyWaitPollCompletesOnAKey x s.clearChanged
  obtain ⟨k, hk, hx, hregs, hpc, hmode, -⟩ := hpoll hpressed
  exact ⟨_, k, step_of_awaitingKey hwait, hk, hx, hregs, hmode, hpc⟩

/-- Settles O52, by induction on the quiet turns. -/
theorem firstPressedKeyEndsTheWait : Obligations.FirstPressedKeyEndsTheWait := by
  intro x s quiet turn rest
  induction quiet generalizing s with
  | nil =>
    intro hwait hturns _ hpressed
    have hturn : s.turn = turn := turn_of_turns hturns
    rw [← hturn] at hpressed ⊢
    obtain ⟨u, k, hu, hrest⟩ := step_of_pressed_wait hwait hpressed
    exact ⟨⟨s, run_zero s, hwait, rfl⟩, u, k, run_succ hu 0, hrest⟩
  | cons q quiet ih =>
    intro hwait hturns hquiet hpressed
    obtain ⟨hq, hquiet⟩ := List.forall_mem_cons.mp hquiet
    obtain ⟨t, ht, htwait, hpc, hV, htturns⟩ := step_of_quiet_wait hwait hturns hq
    obtain ⟨⟨w, hw, hwwait, hwpc⟩, u, k, hu, hk, hx, hregs, hmode, hupc⟩ := ih t htwait htturns hquiet hpressed
    refine ⟨⟨w, (run_succ ht _).trans hw, hwwait, hwpc.trans hpc⟩, u, k, (run_succ ht _).trans hu, hk, hx,
      fun r hr => ?_, hmode, by rw [hupc, hpc]⟩
    rw [hregs r hr, hV]

/-! ## TimerTick (spec/60_exceptions.md R222 to R226) -/

theorem timerTick_changesOnly (s : State) : ChangesOnly [.DT, .ST] s s.timerTick := by
  intro c hc
  cases c with
  | DT | ST => simp at hc
  | V | mem => exact fun _ => rfl
  | inputs => exact ⟨rfl, rfl⟩
  | I | pc | SP | stack | FB | changed | mode => rfl

theorem timersRun_of_running {s : State} (hrunning : s.mode = .running) : s.timersRun = true := by
  simp only [State.timersRun, hrunning]

theorem timersRun_of_awaitingKey {s : State} {x : Reg} (hwait : s.mode = .awaitingKey x) :
    s.timersRun = Config.timersRunInKeyWait := by
  simp only [State.timersRun, hwait]

/-- A timer after a TimerTick: one less, not below 0, where the timers run. -/
theorem tick_toNat (b : Bool) (v : Byte) :
    (if b = true then countdown v else v).toNat = v.toNat - if b = true then 1 else 0 := by
  cases b with
  | true => exact countdown_toNat v
  | false => rfl

theorem countdown_of_ne_zero {v : Byte} (h : v ≠ 0) : countdown v = v - 1 := if_neg h

/-- Settles O53: the mode decides whether the two timers count. -/
theorem timerTickCountsDown : Obligations.TimerTickCountsDown := by
  intro s
  have hDT := tick_toNat s.timersRun s.DT
  have hST := tick_toNat s.timersRun s.ST
  refine ⟨timerTick_changesOnly s, fun hrunning => ?_, fun x hwait => ?_, fun d => timerTick_of_halted⟩
  · rw [timersRun_of_running hrunning] at hDT hST
    rw [State.timerTick_DT, State.timerTick_ST, timersRun_of_running hrunning]
    exact ⟨hDT, hST⟩
  · rw [timersRun_of_awaitingKey hwait] at hDT hST
    rw [State.timerTick_DT, State.timerTick_ST, timersRun_of_awaitingKey hwait]
    exact ⟨hDT, hST⟩

/-- Settles O54: whether a tick counts depends on the mode alone. -/
theorem timersAreIndependent : Obligations.TimersAreIndependent := by
  intro x s v
  refine ⟨rfl, rfl, fun hrunning hDT => ?_, fun hrunning hST => ?_, ?_, ?_⟩
  · rw [State.timerTick_DT, if_pos (timersRun_of_running hrunning), countdown_of_ne_zero hDT]
  · rw [State.timerTick_ST, if_pos (timersRun_of_running hrunning), countdown_of_ne_zero hST]
  · obtain ⟨t, ht, -, -, hframe⟩ := execLdDT_spec x s
    exact ⟨t, ht, hframe .ST (by decide)⟩
  · obtain ⟨t, ht, -, -, hframe⟩ := execLdST_spec x s
    exact ⟨t, ht, hframe .DT (by decide)⟩

theorem countdownBy_toNat (n : Nat) (v : Byte) : (countdownBy n v).toNat = v.toNat - n := by
  induction n generalizing v with
  | zero => rfl
  | succ n ih => rw [countdownBy, ih, countdown_toNat, Nat.sub_sub, Nat.add_comm]

theorem timerTicks_succ (n : Nat) (s : State) : s.timerTicks (n + 1) = s.timerTick.timerTicks n := by
  have hrun : s.timerTick.timersRun = s.timersRun := rfl
  cases h : s.timersRun <;> simp [State.timerTicks, hrun, h, countdownBy]

theorem timerTicks_eq_iterate (n : Nat) (s : State) : s.timerTicks n = State.timerTick^[n] s := by
  induction n generalizing s with
  | zero => cases h : s.timersRun <;> simp [State.timerTicks, h, countdownBy]
  | succ n ih => rw [timerTicks_succ, ih, Function.iterate_succ_apply]

/-- Settles O55, by induction on the number of ticks. -/
theorem ticksOfATurnAreTimerTicks : Obligations.TicksOfATurnAreTimerTicks := by
  intro n s
  refine ⟨timerTicks_eq_iterate n s, fun hrunning => ?_⟩
  rw [State.timerTicks_DT, State.timerTicks_ST, if_pos (timersRun_of_running hrunning),
    if_pos (timersRun_of_running hrunning)]
  exact ⟨countdownBy_toNat n s.DT, countdownBy_toNat n s.ST⟩

end Sys2Proof.Machine
end

section
/-! PROOFS. Reset, LoadRom and Boot (spec/70_reset_and_hazards.md; spec/20_memory.md R55 to R66). -/

namespace Sys2Proof.Machine

/-! ## Memory before a program is loaded (R66, R250) -/

theorem unlisted_of_outside_font {a : Nat} (h : a < 0x050 ∨ 0x0A0 ≤ a) : Memory.unlisted a = 0 := by
  rw [Memory.unlisted]
  split
  · rename_i hbase
    have hlength : defaultFont.length = 80 := rfl
    refine List.getD_eq_default _ _ ?_
    rw [hlength]
    have : Config.fontBase = 0x050 := rfl
    omega
  · rfl

theorem read_zeroed (a : Nat) : Memory.read Memory.zeroed a = 0 := by
  rw [Memory.zeroed, Memory.read_writeBytes]
  split
  · exact List.getElem_replicate _
  · rename_i h
    refine unlisted_of_outside_font ?_
    have : Config.fontBase = 0x050 := rfl
    rw [List.length_replicate] at h
    omega

theorem wf_zeroed : Memory.wf Memory.zeroed = true :=
  Memory.wf_writeBytes _ _ Memory.wf_nil (by decide)

theorem State.resetOperation_mem (s : State) : s.resetOperation.mem = Memory.zeroed := by
  simp only [State.resetOperation]

/-- Settles O56: the memory lists nothing, so outside the font it reads as 0. -/
theorem resetStateHasTheListedValues : Obligations.ResetStateHasTheListedValues := by
  exact ⟨rfl, by decide, rfl, rfl, by decide, rfl, rfl, blankFramebuffer_getElem, rfl, rfl,
    fun _ => unlisted_of_outside_font⟩

/-- Settles O57: the zeros written over the font region are the whole of the memory. -/
theorem resetOperationClearsEverything : Obligations.ResetOperationClearsEverything := by
  intro s
  rw [State.resetOperation_mem]
  refine ⟨read_zeroed, wf_zeroed, fun c hc => ?_, rfl, rfl⟩
  cases c with
  | mem | inputs => simp at hc
  | V => exact fun _ => rfl
  | I | pc | SP | stack | DT | ST | FB | changed | mode => rfl

/-! ## `load_rom(bytes)` (R56, R57) -/

theorem loadRom_of_fits (s : State) {bytes : List Byte} (h : bytes.length ≤ 3584) :
    s.loadRom bytes = { s with mem := Memory.writeBytes s.mem 0x200 bytes } :=
  if_pos (decide_eq_true h)

theorem loadRom_of_too_large (s : State) {bytes : List Byte} (h : bytes.length > 3584) :
    s.loadRom bytes = { s with mode := .halted ⟨.romTooLarge, none, 0x200⟩ } :=
  if_neg (by simpa [romFits] using h)

/-- Settles O59: one block write, or one change of mode. -/
theorem loadRomWritesAllOrNothing : Obligations.LoadRomWritesAllOrNothing := by
  intro s bytes
  constructor
  · intro hfits
    rw [loadRom_of_fits s hfits]
    exact ⟨Memory.read_writeBytes_inside bytes s.mem 0x200, memoryKeptOutside_writeBytes s 0x200 bytes,
      changesOnly_mem_of_update s _⟩
  · intro htoo
    rw [loadRom_of_too_large s htoo]
    exact ⟨rfl, changesOnly_mode_of_update s _⟩

/-! ## Boot (R251) -/

/-- Loading the default font into zeros gives the memory of the reset state, as equal data. -/
theorem loadFont_zeroed : Memory.writeBytes Memory.zeroed 0x050 defaultFont = [] := by
  have hlength : defaultFont.length = 80 := rfl
  refine Memory.ext_of_wf _ _ (Memory.wf_writeBytes _ _ wf_zeroed (by decide)) Memory.wf_nil fun a => ?_
  rw [Memory.read_writeBytes, Memory.read_nil]
  split
  · rename_i h
    obtain ⟨hbase, hlisted⟩ := h
    rw [Memory.unlisted, if_pos hbase]
    exact (List.getD_eq_getElem _ _ hlisted).symm
  · rename_i h
    rw [read_zeroed, unlisted_of_outside_font (by omega)]

theorem boot_default (s : State) : s.boot fontParameter [] = State.reset.withInputs s.turns s.turnCount := by
  have hmem : Memory.writeBytes s.resetOperation.mem Config.fontBase fontParameter.toList = [] := by
    rw [State.resetOperation_mem]
    exact loadFont_zeroed
  have hfont : s.resetOperation.loadFont fontParameter = { s.resetOperation with mem := [] } := by
    rw [State.loadFont, hmem]
  rw [State.boot, hfont, loadRom_of_fits _ (by decide)]
  rfl

/-- Settles O60: the program and the font are block writes over zeros to regions that do not meet. -/
theorem bootFillsMemory : Obligations.BootFillsMemory := by
  intro s font bytes
  refine ⟨boot_default s, fun hfits => ?_⟩
  obtain ⟨hload, -⟩ := loadRomWritesAllOrNothing (s.resetOperation.loadFont font) bytes
  obtain ⟨hprogram, hkept, hframe⟩ := hload hfits
  obtain ⟨hfont, hfontKept, -, -⟩ := loadFontWritesTheFontRegion s.resetOperation font
  refine ⟨hprogram, fun i => ?_, fun a ha => ?_, hframe .pc (by decide), hframe .mode (by decide), ?_⟩
  · exact (hkept _ (by omega)).trans (hfont i)
  · exact (hkept a (by omega)).trans ((hfontKept a (by omega)).trans (by rw [State.resetOperation_mem, read_zeroed]))
  · rw [State.boot, loadRom_of_fits _ hfits]
    refine Memory.wf_writeBytes _ _ ?_ (by omega)
    rw [State.loadFont, State.resetOperation_mem]
    exact Memory.wf_writeBytes _ _ wf_zeroed (by rw [Vector.length_toList]; decide)

end Sys2Proof.Machine
end
